-- ==== Sys2Proof/Word.lean ====
section
/-! DEFINITION. The data widths of the MD5 engine (spec/00_scope.md R6, R8; spec/10_state.md).
Everything is unsigned; there is no sign extension anywhere (R8). -/

namespace Sys2Proof

/-- A 32-bit unsigned word (R6, R8). -/
abbrev Word := BitVec 32

/-- A byte, 0 to 255 (R66). -/
abbrev Byte := BitVec 8

/-- A command word, `cmd[9:0]` (R90). -/
abbrev CmdWord := BitVec 10

end Sys2Proof
end

