-- ==== Sys2Proof/Config.lean ====
section
/-! DEFINITION. What is fixed for the engine and is not state: the initial constants, the tables K and S, and the one
value the spec leaves open (spec/00_scope.md R6, R7; spec/10_state.md R21, R29, R30, R31, R39;
spec/41_compressor.md R151, R152). -/

namespace Sys2Proof

/-- The two read-only tables of the engine: `k` is K[0..63], `s` is S[0..63], each amount stored in 5 bits (R29, R30, R39).
A structural claim about the engine can be made for every table; a claim about digests is made for `Config.tables`. -/
structure Tables where
  k : Vector Word 64
  s : Vector (BitVec 5) 64
  deriving DecidableEq, Repr

/-- Initial constant of A (R21). -/
def Config.ivA : Word := 0x67452301
/-- Initial constant of B (R21). -/
def Config.ivB : Word := 0xefcdab89
/-- Initial constant of C (R21). -/
def Config.ivC : Word := 0x98badcfe
/-- Initial constant of D (R21). -/
def Config.ivD : Word := 0x10325476

/-- K[0] to K[15], the constants of the rounds of group 0 (R151). PRESUMED by the spec itself, log 13. -/
def Config.kF : List Word :=
  [0xd76aa478, 0xe8c7b756, 0x242070db, 0xc1bdceee,
   0xf57c0faf, 0x4787c62a, 0xa8304613, 0xfd469501,
   0x698098d8, 0x8b44f7af, 0xffff5bb1, 0x895cd7be,
   0x6b901122, 0xfd987193, 0xa679438e, 0x49b40821]

/-- K[16] to K[31], the constants of the rounds of group 1 (R151). PRESUMED by the spec itself, log 13. -/
def Config.kG : List Word :=
  [0xf61e2562, 0xc040b340, 0x265e5a51, 0xe9b6c7aa,
   0xd62f105d, 0x02441453, 0xd8a1e681, 0xe7d3fbc8,
   0x21e1cde6, 0xc33707d6, 0xf4d50d87, 0x455a14ed,
   0xa9e3e905, 0xfcefa3f8, 0x676f02d9, 0x8d2a4c8a]

/-- K[32] to K[47], the constants of the rounds of group 2 (R151). PRESUMED by the spec itself, log 13. -/
def Config.kH : List Word :=
  [0xfffa3942, 0x8771f681, 0x6d9d6122, 0xfde5380c,
   0xa4beea44, 0x4bdecfa9, 0xf6bb4b60, 0xbebfbc70,
   0x289b7ec6, 0xeaa127fa, 0xd4ef3085, 0x04881d05,
   0xd9d4d039, 0xe6db99e5, 0x1fa27cf8, 0xc4ac5665]

/-- K[48] to K[63], the constants of the rounds of group 3 (R151). PRESUMED by the spec itself, log 13. -/
def Config.kI : List Word :=
  [0xf4292244, 0x432aff97, 0xab9423a7, 0xfc93a039,
   0x655b59c3, 0x8f0ccc92, 0xffeff47d, 0x85845dd1,
   0x6fa87e4f, 0xfe2ce6e0, 0xa3014314, 0x4e0811a1,
   0xf7537e82, 0xbd3af235, 0x2ad7d2bb, 0xeb86d391]

/-- The four rotation amounts of group 0, repeated four times (R97, R152). PRESUMED by the spec itself, log 13. -/
def Config.srowF : List (BitVec 5) := [7, 12, 17, 22]

/-- The four rotation amounts of group 1, repeated four times (R97, R152). PRESUMED by the spec itself, log 13. -/
def Config.srowG : List (BitVec 5) := [5, 9, 14, 20]

/-- The four rotation amounts of group 2, repeated four times (R97, R152). PRESUMED by the spec itself, log 13. -/
def Config.srowH : List (BitVec 5) := [4, 11, 16, 23]

/-- The four rotation amounts of group 3, repeated four times (R97, R152). PRESUMED by the spec itself, log 13. -/
def Config.srowI : List (BitVec 5) := [6, 10, 15, 21]

/-- A row of four amounts, four times: the sixteen amounts of one group (R152). -/
def Config.fourTimes (row : List (BitVec 5)) : List (BitVec 5) := row ++ row ++ row ++ row

/-- K_TABLE and S_TABLE at the values the spec supplies (R7, R151, R152). -/
def Config.tables : Tables where
  k := ⟨⟨Config.kF ++ Config.kG ++ Config.kH ++ Config.kI⟩, rfl⟩
  s := ⟨⟨Config.fourTimes Config.srowF ++ Config.fourTimes Config.srowG ++ Config.fourTimes Config.srowH ++
    Config.fourTimes Config.srowI⟩, rfl⟩

/-- DIGEST_WHEN_NOT_DONE (R31, R302; D15, U2): what a reader of DIGEST gets while PHASE is not Done, any sixteen bytes. A FREE
VALUE: it has no body, so nothing can be proved of it. The argument is a counter of the state (log 1). -/
opaque Config.digestWhenNotDone : Nat → Vector Byte 16

end Sys2Proof
end

