-- ==== Sys2Proof/Syntax.lean ====
section
/-! DEFINITION. The instructions: one constructor for each of the 78 rows of spec/opcode_table.json (spec/30_encoding.md R90 to R95,
R102), four commands and 74 internal operations. -/

namespace Sys2Proof

/-- Commands (what the host sends, R12) and internal operations (what the engine does inside a command, R12).
`endMsg` is END (`end` is a word of Lean). The operand of `parse` and `compress` is the index in BUF where the block begins. -/
inductive Instr where
  /-- INIT (R271) -/
  | init
  /-- DATA v (R272) -/
  | data (v : Byte)
  /-- END (R273) -/
  | endMsg
  /-- FAIL (R274) -/
  | fail
  -- ROUND 0 to ROUND 15, function F (R200 to R215)
  | f00 | f01 | f02 | f03 | f04 | f05 | f06 | f07
  | f08 | f09 | f10 | f11 | f12 | f13 | f14 | f15
  -- ROUND 16 to ROUND 31, function G (R216 to R231)
  | g16 | g17 | g18 | g19 | g20 | g21 | g22 | g23
  | g24 | g25 | g26 | g27 | g28 | g29 | g30 | g31
  -- ROUND 32 to ROUND 47, function H (R232 to R247)
  | h32 | h33 | h34 | h35 | h36 | h37 | h38 | h39
  | h40 | h41 | h42 | h43 | h44 | h45 | h46 | h47
  -- ROUND 48 to ROUND 63, function I (R248 to R263)
  | i48 | i49 | i50 | i51 | i52 | i53 | i54 | i55
  | i56 | i57 | i58 | i59 | i60 | i61 | i62 | i63
  /-- APPEND v (R120) -/
  | append (v : Byte)
  /-- PAD80 (R121) -/
  | pad80
  /-- PADZ (R122) -/
  | padz
  /-- PADLEN (R123) -/
  | padlen
  /-- PAD (R124) -/
  | pad
  /-- PARSE base (R141) -/
  | parse (base : Byte)
  /-- LOADW (R142) -/
  | loadw
  /-- FEEDFWD (R153) -/
  | feedfwd
  /-- COMPRESS base (R140) -/
  | compress (base : Byte)
  /-- SERIALIZE (R290) -/
  | serialize
  deriving DecidableEq, Repr

/-- The two forms of spec/opcode_table.json: a command word (R90), or the label of an internal operation (R94). -/
inductive Format where
  | cmd
  | uop
  deriving DecidableEq, Repr

/-- An instruction's bits, bit 0 the least significant bit of its first byte. For `cmd` bits 9:0 are the command word (R90).
For `uop` bits 6:0 are the label (R94) and bits 15:8 the operand byte, a place the MODEL gives it (log 8). -/
structure TableWord where
  format : Format
  bits   : BitVec 16
  deriving DecidableEq, Repr

end Sys2Proof
end

