-- ==== Sys2Proof/Machine/State.lean ====
section
/-! DEFINITION. The state of one engine, all of it plain data (spec/10_state.md: the tuple at its head, R20 to R36), its value after
reset (R38), and the reasons a step can stop. -/

namespace Sys2Proof.Machine

/-- PHASE, the state of the Digest Accumulator: exactly six values (R24; U4). -/
inductive Phase where
  | reading | draining | padding | finalizing | done | failed
  deriving DecidableEq, Repr

/-- BUF's bytes that differ from what an unlisted byte reads as, by index, in canonical form (`Memory.wf`). -/
abbrev Memory := List Host.Cell

/-- What a BUF byte that nothing has written reads as. DESIGN CHOICE, unsafe (log 3): the spec leaves it unspecified (R38) and
no rule reads one (R37c). -/
def Memory.blank : Byte := 0

/-- The number of bytes of BUF (R26). -/
def Memory.size : Nat := 128

/-- Indices strictly rising. -/
def Memory.rising : Memory → Bool
  | [] => true
  | [_] => true
  | x :: y :: m => decide (x.1 < y.1) && Memory.rising (y :: m)

/-- The canonical form: indices strictly rising, all inside BUF, no byte listed that reads the same unlisted. -/
def Memory.wf (m : Memory) : Bool :=
  Memory.rising m && m.all fun x => decide (x.1 < Memory.size) && decide (x.2 ≠ Memory.blank)

/-- One sample of the engine's three input ports (R34). -/
structure PortSample where
  rst      : Bool
  cmdValid : Bool
  cmd      : CmdWord
  deriving DecidableEq, Repr

/-- The architectural state of one engine. `A` to `D` and `a` to `d` are different registers (R22). -/
structure State where
  /-- the State words (R20) -/
  A : Word
  B : Word
  C : Word
  D : Word
  /-- the working variables (R22) -/
  a : Word
  b : Word
  c : Word
  d : Word
  /-- RND, the round index (R25) -/
  rnd : BitVec 6
  /-- PHASE (R24) -/
  phase : Phase
  /-- BUF (R26) -/
  buf : Memory
  /-- CNT, the number of valid bytes in BUF (R26) -/
  cnt : BitVec 8
  /-- W (R27) -/
  w : Vector Word 16
  /-- LEN, the count of message bytes (R28) -/
  len : BitVec 64
  /-- the bytes SERIALIZE stored; what a reader of DIGEST gets is `State.digestOut` (R31; log 4) -/
  digest : Vector Byte 16
  /-- PERR, the sticky protocol-error flag (R32) -/
  perr : Bool
  /-- LOVF, the sticky length-overflow flag (R32) -/
  lovf : Bool
  /-- what the host still offers on the input ports, oldest first (R34, R60; log 6) -/
  inputs : List PortSample
  /-- MODEL'S OWN: the internal operation about to be carried out on its own, a UOP word, if there is one (log 8) -/
  issue : Option (BitVec 16)
  /-- MODEL'S OWN: which free value a reader of DIGEST gets outside Done (log 1) -/
  freeIndex : Nat
  deriving DecidableEq, Repr

/-- The machine right after reset (R38, R330). a, b, c, d, RND, W and the stored DIGEST bytes have no value in the spec: zero is
the model's DESIGN CHOICE (log 2, log 4), as is an empty BUF (log 3). Nothing is offered on the ports (log 6). -/
def State.reset : State where
  A := Config.ivA
  B := Config.ivB
  C := Config.ivC
  D := Config.ivD
  a := 0
  b := 0
  c := 0
  d := 0
  rnd := 0
  phase := .reading
  buf := []
  cnt := 0
  w := Vector.replicate 16 0
  len := 0
  digest := Vector.replicate 16 0
  perr := false
  lovf := false
  inputs := []
  issue := none
  freeIndex := 0

/-- The model's faults: cases the spec says cannot arise, with no effect given. Neither is an exception of the engine. -/
inductive Fault where
  /-- raised by APPEND (and PAD80, PADZ, PADLEN, PAD, DATA, END through it) when CNT is 128 or more: BUF has no such byte (R120).
  Safe (log 10). -/
  | bufferOverrun
  /-- raised by ROUND i when RND is not i: the round requires RND = i (R143). Safe (log 9). -/
  | roundOutOfOrder
  deriving DecidableEq, Repr

/-- What the model gives no meaning. -/
inductive Refusal where
  /-- raised by an arm of `exec` whose instruction has no meaning yet; no arm raises it. Safe. -/
  | notModelled (mnemonic : String)
  /-- raised by PARSE and COMPRESS when the base is neither 0 nor 64 (R67, R140, R141). Safe (log 11). -/
  | badBlockBase
  /-- raised by the step when the word in `issue` is no internal operation (R99; U4). Safe (log 12). -/
  | undefinedOperation
  deriving DecidableEq, Repr

end Sys2Proof.Machine
end

