-- ==== Sys2Proof/Machine/Flags.lean ====
section
/-! DEFINITION. The flags and the status word (spec/10_state.md R24, R32, R33). There are no condition codes (R32). -/

namespace Sys2Proof.Machine

/-- The 3-bit code of PHASE (R24). -/
def Phase.code : Phase → BitVec 3
  | .reading => 0
  | .draining => 1
  | .padding => 2
  | .finalizing => 3
  | .done => 4
  | .failed => 5

/-- The phases that can be seen between commands (R24). -/
def Phase.stable : Phase → Bool
  | .reading | .done | .failed => true
  | .draining | .padding | .finalizing => false

/-- LEN[63:61] is not zero: 2^61 or more bytes have been counted (R32). -/
def lenOverflows (len : BitVec 64) : Bool := len.extractLsb' 61 3 != 0

/-- LOVF after a DATA whose new count is `len`: set, never cleared (R32, R272). -/
def nextLovf (lovf : Bool) (len : BitVec 64) : Bool := lovf || lenOverflows len

/-- STATUS: bits 2:0 PHASE, bit 3 PERR, bit 4 LOVF, bits 7:5 zero (R33). -/
def statusWord (phase : Phase) (perr lovf : Bool) : Byte :=
  (0 : BitVec 3) ++ BitVec.ofBool lovf ++ BitVec.ofBool perr ++ phase.code

end Sys2Proof.Machine
end

