-- ==== Sys2Proof/Machine/Operands.lean ====
section
/-! DEFINITION. The operands of the operations and the arithmetic on words: add32, rotl32, the four round functions, the word index,
the table entries, the place of a block (spec/00_scope.md R10; spec/30_encoding.md R95 to R97; spec/41_compressor.md R144 to R152). -/

namespace Sys2Proof.Machine

/-- Wraparound addition of words (R10, R149). -/
def add32 (x y : Word) : Word := x + y

/-- Circular rotation towards the most significant end, defined for every amount (R10, R150). -/
def rotl32 (x : Word) (s : Nat) : Word :=
  if s % 32 = 0 then x else (x <<< (s % 32)) ||| (x >>> (32 - s % 32))

/-- F, rounds 0 to 15 (R144). -/
def fnF (b c d : Word) : Word := (b &&& c) ||| (~~~b &&& d)

/-- G, rounds 16 to 31 (R145). -/
def fnG (b c d : Word) : Word := (d &&& b) ||| (~~~d &&& c)

/-- H, rounds 32 to 47 (R146). -/
def fnH (b c d : Word) : Word := b ^^^ c ^^^ d

/-- I, rounds 48 to 63 (R147). -/
def fnI (b c d : Word) : Word := c ^^^ (b ||| ~~~d)

/-- The group `fn` of a round, i[5:4] (R95). -/
def groupOf (i : BitVec 6) : BitVec 2 := i.extractLsb' 4 2

/-- FN_fn, the function of a group (R143). -/
def mixOf (fn : BitVec 2) : Word → Word → Word → Word :=
  match fn.toNat with
  | 0 => fnF
  | 1 => fnG
  | 2 => fnH
  | _ => fnI

/-- g = G_fn(i), the index of the message word a round reads (R96, R148). -/
def wordIndex (i : BitVec 6) : Fin 16 :=
  match (groupOf i).toNat with
  | 0 => Fin.ofNat 16 i.toNat
  | 1 => Fin.ofNat 16 (5 * i.toNat + 1)
  | 2 => Fin.ofNat 16 (3 * i.toNat + 5)
  | _ => Fin.ofNat 16 (7 * i.toNat)

/-- K[i] (R29, R97). -/
def constantOf (T : Tables) (i : BitVec 6) : Word := T.k.get i.toFin

/-- S[i] (R30, R97). -/
def amountOf (T : Tables) (i : BitVec 6) : Nat := (T.s.get i.toFin).toNat

/-- Where in BUF the block of a PARSE or a COMPRESS begins: 0 or 64, nothing else (R67). -/
def blockBase (base : Byte) : Option Nat :=
  if base = 0 then some 0 else if base = 64 then some 64 else none

/-- Byte k of a 32-bit word (R9). -/
def wordByte (x : Word) (k : Nat) : Byte := x.extractLsb' (8 * k) 8

/-- Byte k of a 64-bit value (R9). -/
def longByte (x : BitVec 64) (k : Nat) : Byte := x.extractLsb' (8 * k) 8

/-- BITLEN = (LEN * 8) mod 2^64 (R28, R126). -/
def bitLen (len : BitVec 64) : BitVec 64 := len * 8

/-- The eight bytes of the length field, the lowest first (R62, R123). -/
def lengthField (bits : BitVec 64) : List Byte := (List.range 8).map (longByte bits)

/-- Sixteen digest bytes of the four State words, each low byte first, in the order A, B, C, D (R63, R290). -/
def digestBytes (A B C D : Word) : Vector Byte 16 :=
  #v[wordByte A 0, wordByte A 1, wordByte A 2, wordByte A 3, wordByte B 0, wordByte B 1, wordByte B 2, wordByte B 3,
     wordByte C 0, wordByte C 1, wordByte C 2, wordByte C 3, wordByte D 0, wordByte D 1, wordByte D 2, wordByte D 3]

end Sys2Proof.Machine
end

