-- ==== Sys2Proof/Machine/Ops.lean ====
section
/-! DEFINITION. The named operations the meanings are made of: BUF's bytes, the register updates, the two exceptions and what leaves
them, and the Padder's, the Compressor's and the Serializer's operations (spec/00_scope.md R11; spec/20_memory.md R61 to R68;
spec/40_padder.md; spec/41_compressor.md; spec/47_serializer.md; spec/60_exceptions.md). -/

namespace Sys2Proof.Machine

/-- The outcome of an operation on this engine. -/
abbrev Result := Host.Outcome State Fault Refusal

/-- One operation after another: the second runs on what the first leaves, unless the first stops. -/
def andThen (r : Result) (k : State → Result) : Result :=
  match r with
  | .next s => k s
  | .fault f => .fault f
  | .refused q => .refused q

/-! ### BUF -/

/-- The byte of BUF at an index. -/
def Memory.read : Memory → Nat → Byte
  | [], _ => Memory.blank
  | x :: m, i => if x.1 = i then x.2 else Memory.read m i

/-- BUF[i] <- v, keeping the canonical form. -/
def Memory.write : Memory → Nat → Byte → Memory
  | [], i, v => if v = Memory.blank then [] else [(i, v)]
  | x :: m, i, v =>
    if x.1 < i then x :: Memory.write m i v
    else if x.1 = i then (if v = Memory.blank then m else (i, v) :: m)
    else (if v = Memory.blank then x :: m else (i, v) :: x :: m)

/-- MemRead(addr, n): n bytes of BUF as one little-endian number (R11). -/
def memRead (m : Memory) (addr : Nat) : Nat → Nat
  | 0 => 0
  | n + 1 => memRead m addr n + (m.read (addr + n)).toNat * 2 ^ (8 * n)

/-- MemWrite(addr, n, v): byte k of v at addr + k, for k from 0 up (R11). -/
def memWrite (m : Memory) (addr : Nat) : List Byte → Memory
  | [] => m
  | v :: vs => memWrite (m.write addr v) (addr + 1) vs

/-! ### Register updates -/

/-- (A, B, C, D) <- … -/
def State.setChain (s : State) (A B C D : Word) : State := { s with A := A, B := B, C := C, D := D }
/-- (a, b, c, d) <- … together with RND. -/
def State.setWork (s : State) (a b c d : Word) (rnd : BitVec 6) : State := { s with a := a, b := b, c := c, d := d, rnd := rnd }
/-- PHASE <- … -/
def State.setPhase (s : State) (p : Phase) : State := { s with phase := p }
/-- BUF and CNT, which every APPEND writes together. -/
def State.setBuf (s : State) (m : Memory) (n : BitVec 8) : State := { s with buf := m, cnt := n }
/-- CNT <- … -/
def State.setCnt (s : State) (n : BitVec 8) : State := { s with cnt := n }
/-- W[0..15] <- … -/
def State.setW (s : State) (w : Vector Word 16) : State := { s with w := w }
/-- LEN and LOVF, which the count of a byte writes together. -/
def State.setLen (s : State) (n : BitVec 64) (lovf : Bool) : State := { s with len := n, lovf := lovf }
/-- DIGEST[0..15] <- … -/
def State.setDigest (s : State) (v : Vector Byte 16) : State := { s with digest := v }
/-- PERR <- … -/
def State.setPerr (s : State) (b : Bool) : State := { s with perr := b }

/-! ### Exceptions -/

/-- The engine's two exceptions (R300). -/
inductive ExceptionKind where
  | sourceReadError
  | protocolError
  deriving DecidableEq, Repr

/-- The exception's code, a label only: the engine has no cause register (R300). -/
def ExceptionKind.code : ExceptionKind → Nat
  | .sourceReadError => 1
  | .protocolError => 2

/-- Taking an exception: what it records, and nothing else. No vector, no saved counter, no mode (R300, R301, R304, R308). -/
def raise (e : ExceptionKind) (s : State) : State :=
  match e with
  | .sourceReadError => s.setPhase .failed
  | .protocolError => s.setPerr true

/-- Leaving an exception is starting a new message: the effect of INIT (R271, R303). -/
def beginMessage (s : State) : State :=
  ((((s.setChain Config.ivA Config.ivB Config.ivC Config.ivD).setLen 0 false).setCnt 0).setPerr false).setPhase .reading

/-- `rst`: whatever the engine is doing is abandoned and it is in its reset state; the host still offers `rest` (R307, R330; log 18). -/
def resetNow (s : State) (rest : List PortSample) : State :=
  { State.reset with inputs := rest, freeIndex := s.freeIndex + 1 }

/-- A command other than INIT is legal in Reading only; anywhere else it is a ProtocolError (R98, R272 to R275; log 15). -/
def whenReading (s : State) (r : Result) : Result :=
  if s.phase = .reading then r else .next (raise .protocolError s)

/-! ### The Padder's operations -/

/-- APPEND v: BUF[CNT] <- v; CNT <- CNT + 1 (R120). -/
def append (v : Byte) (s : State) : Result :=
  if s.cnt.toNat < Memory.size then .next (s.setBuf (s.buf.write s.cnt.toNat v) (s.cnt + 1)) else .fault .bufferOverrun

/-- APPEND of each byte, in order (R123). -/
def appendAll : List Byte → State → Result
  | [], s => .next s
  | v :: vs, s => andThen (append v s) (appendAll vs)

/-- PAD80: APPEND 0x80 (R121). -/
def padMarker (s : State) : Result := append 0x80 s

/-- The loop of PADZ: while CNT mod 64 is not 56, APPEND 0x00 (R122). The first argument bounds the number of bytes. -/
def padZerosUpTo : Nat → State → Result
  | 0, s => .next s
  | n + 1, s => if s.cnt.toNat % 64 = 56 then .next s else andThen (append 0x00 s) (padZerosUpTo n)

/-- PADZ (R122): the fill is never more than 63 bytes. -/
def padZeros (s : State) : Result := padZerosUpTo 63 s

/-- PADLEN: the eight bytes of BITLEN, the lowest first (R123). -/
def padLength (s : State) : Result := appendAll (lengthField (bitLen s.len)) s

/-- PAD: PAD80; PADZ; PADLEN (R124). -/
def padAll (s : State) : Result := andThen (andThen (padMarker s) padZeros) padLength

/-! ### The Compressor's operations -/

/-- W[j] for the block at `base`: four bytes of BUF, little-endian (R61, R141). -/
def blockWord (m : Memory) (base : Nat) (j : Nat) : Word := BitVec.ofNat 32 (memRead m (base + 4 * j) 4)

/-- PARSE base (R141). -/
def parseBlock (base : Nat) (s : State) : State := s.setW (Vector.ofFn fun j => blockWord s.buf base j.val)

/-- LOADW: (a, b, c, d) <- (A, B, C, D); RND <- 0 (R142). -/
def loadWork (s : State) : State := s.setWork s.A s.B s.C s.D 0

/-- b' of a round: b + rotl32(f + a + K + W[g], S) (R143). -/
def mixed (f : Word → Word → Word → Word) (a b c d k x : Word) (amount : Nat) : Word :=
  add32 b (rotl32 (add32 (add32 (add32 (f b c d) a) k) x) amount)

/-- The effect of ROUND i with function f and word index g: (a, b, c, d) <- (d, b', b, c); RND <- (i + 1) mod 64 (R143). -/
def roundWith (T : Tables) (i : BitVec 6) (f : Word → Word → Word → Word) (g : Fin 16) (s : State) : State :=
  s.setWork s.d (mixed f s.a s.b s.c s.d (constantOf T i) (s.w.get g) (amountOf T i)) s.b s.c (i + 1)

/-- ROUND i carried out on its own: it requires RND = i (R143; log 9). -/
def roundAt (T : Tables) (i : BitVec 6) (f : Word → Word → Word → Word) (g : Fin 16) (s : State) : Result :=
  if s.rnd = i then .next (roundWith T i f g s) else .fault .roundOutOfOrder

/-- The template: function and word index computed from i (R143, R148). -/
def roundTemplate (T : Tables) (s : State) (i : BitVec 6) : State := roundWith T i (mixOf (groupOf i)) (wordIndex i) s

/-- The 64 round indices in order (R140). -/
def roundIndices : List (BitVec 6) := (List.range 64).map (BitVec.ofNat 6)

/-- ROUND 0; …; ROUND 63 (R140). -/
def allRounds (T : Tables) (s : State) : State := roundIndices.foldl (roundTemplate T) s

/-- FEEDFWD (R153). -/
def feedForward (s : State) : State := s.setChain (add32 s.A s.a) (add32 s.B s.b) (add32 s.C s.c) (add32 s.D s.d)

/-- COMPRESS base: PARSE base; LOADW; ROUND 0 … ROUND 63; FEEDFWD (R140). Total: it raises nothing (R156). -/
def compressBlock (T : Tables) (base : Nat) (s : State) : State := feedForward (allRounds T (loadWork (parseBlock base s)))

/-- An operation on a block whose base the operand byte names (R67; log 11). -/
def onBase (base : Byte) (f : Nat → State → State) (s : State) : Result :=
  match blockBase base with
  | some n => .next (f n s)
  | none => .refused .badBlockBase

/-! ### The Serializer and the Accumulator -/

/-- SERIALIZE (R290). -/
def serializeChain (s : State) : State := s.setDigest (digestBytes s.A s.B s.C s.D)

/-- LEN <- LEN + 1 modulo 2^64, and LOVF set when the new count needs it (R272). -/
def countByte (s : State) : State := s.setLen (s.len + 1) (nextLovf s.lovf (s.len + 1))

/-- if CNT = 64 then COMPRESS 0; CNT <- 0 (R272). -/
def absorbFull (T : Tables) (s : State) : State := if s.cnt = 64 then (compressBlock T 0 s).setCnt 0 else s

/-- DATA's effect in Reading (R272). -/
def takeByte (T : Tables) (v : Byte) (s : State) : Result :=
  andThen (append v s) fun t => .next (absorbFull T (countByte t))

/-- COMPRESS 0; if CNT = 128 then COMPRESS 64 (R273). -/
def compressPadded (T : Tables) (s : State) : State :=
  let t := compressBlock T 0 s
  if t.cnt = 128 then compressBlock T 64 t else t

/-- END's effect in Reading: PHASE through Draining, Padding, Finalizing to Done (R273). -/
def finishMessage (T : Tables) (s : State) : Result :=
  andThen (padAll ((s.setPhase .draining).setPhase .padding)) fun t =>
    .next ((serializeChain (compressPadded T (t.setPhase .finalizing))).setPhase .done)

end Sys2Proof.Machine
end

