-- ==== Sys2Proof/Machine/Accumulator.lean ====
section
/-! DEFINITION. The meanings of the four commands (spec/46_accumulator.md R271 to R275). -/

namespace Sys2Proof.Machine

/-- INIT: legal in every phase (R271). BUF, W, a, b, c, d, RND are not written. -/
def execInit (s : State) : Result := .next (beginMessage s)

/-- DATA v (R272, R275). -/
def execData (v : Byte) (s : State) : Result := whenReading s (takeByte Config.tables v s)

/-- END (R273, R275). -/
def execEndMsg (s : State) : Result := whenReading s (finishMessage Config.tables s)

/-- FAIL: it raises SourceReadError (R274, R275, R301). -/
def execFail (s : State) : Result := whenReading s (.next (raise .sourceReadError s))

end Sys2Proof.Machine
end

