-- ==== Sys2Proof/Machine/Compressor.lean ====
section
/-! DEFINITION. The meanings of the Compressor's frame (spec/41_compressor.md R140, R141, R142, R153). -/

namespace Sys2Proof.Machine

/-- PARSE base (R141). -/
def execParse (base : Byte) (s : State) : Result := onBase base parseBlock s

/-- LOADW (R142). -/
def execLoadW (s : State) : Result := .next (loadWork s)

/-- FEEDFWD (R153). -/
def execFeedFwd (s : State) : Result := .next (feedForward s)

/-- COMPRESS base (R140). -/
def execCompress (base : Byte) (s : State) : Result := onBase base (compressBlock Config.tables) s

end Sys2Proof.Machine
end

