-- ==== Sys2Proof/Machine/Padder.lean ====
section
/-! DEFINITION. The meanings of the Padder's operations (spec/40_padder.md R120 to R124). -/

namespace Sys2Proof.Machine

/-- APPEND v (R120). -/
def execAppend (v : Byte) (s : State) : Result := append v s

/-- PAD80 (R121). -/
def execPad80 (s : State) : Result := padMarker s

/-- PADZ (R122). -/
def execPadZ (s : State) : Result := padZeros s

/-- PADLEN (R123). -/
def execPadLen (s : State) : Result := padLength s

/-- PAD (R124). -/
def execPad (s : State) : Result := padAll s

end Sys2Proof.Machine
end

