-- ==== Sys2Proof/Machine/RoundsF.lean ====
section
/-! DEFINITION. The meanings of ROUND 0 to ROUND 15, function F (spec/42_rounds_F.md R200 to R215). Each is the round
of R143 with the word index its own rule writes out; K[i] and S[i] are the tables' entries at its own index. -/

namespace Sys2Proof.Machine

/-- F00 (R200): W[0], K[0] = 0xd76aa478, S[0] = 7. -/
def execF00 (s : State) : Result := roundAt Config.tables 0 fnF 0 s
/-- F01 (R201): W[1], K[1] = 0xe8c7b756, S[1] = 12. -/
def execF01 (s : State) : Result := roundAt Config.tables 1 fnF 1 s
/-- F02 (R202): W[2], K[2] = 0x242070db, S[2] = 17. -/
def execF02 (s : State) : Result := roundAt Config.tables 2 fnF 2 s
/-- F03 (R203): W[3], K[3] = 0xc1bdceee, S[3] = 22. -/
def execF03 (s : State) : Result := roundAt Config.tables 3 fnF 3 s
/-- F04 (R204): W[4], K[4] = 0xf57c0faf, S[4] = 7. -/
def execF04 (s : State) : Result := roundAt Config.tables 4 fnF 4 s
/-- F05 (R205): W[5], K[5] = 0x4787c62a, S[5] = 12. -/
def execF05 (s : State) : Result := roundAt Config.tables 5 fnF 5 s
/-- F06 (R206): W[6], K[6] = 0xa8304613, S[6] = 17. -/
def execF06 (s : State) : Result := roundAt Config.tables 6 fnF 6 s
/-- F07 (R207): W[7], K[7] = 0xfd469501, S[7] = 22. -/
def execF07 (s : State) : Result := roundAt Config.tables 7 fnF 7 s
/-- F08 (R208): W[8], K[8] = 0x698098d8, S[8] = 7. -/
def execF08 (s : State) : Result := roundAt Config.tables 8 fnF 8 s
/-- F09 (R209): W[9], K[9] = 0x8b44f7af, S[9] = 12. -/
def execF09 (s : State) : Result := roundAt Config.tables 9 fnF 9 s
/-- F10 (R210): W[10], K[10] = 0xffff5bb1, S[10] = 17. -/
def execF10 (s : State) : Result := roundAt Config.tables 10 fnF 10 s
/-- F11 (R211): W[11], K[11] = 0x895cd7be, S[11] = 22. -/
def execF11 (s : State) : Result := roundAt Config.tables 11 fnF 11 s
/-- F12 (R212): W[12], K[12] = 0x6b901122, S[12] = 7. -/
def execF12 (s : State) : Result := roundAt Config.tables 12 fnF 12 s
/-- F13 (R213): W[13], K[13] = 0xfd987193, S[13] = 12. -/
def execF13 (s : State) : Result := roundAt Config.tables 13 fnF 13 s
/-- F14 (R214): W[14], K[14] = 0xa679438e, S[14] = 17. -/
def execF14 (s : State) : Result := roundAt Config.tables 14 fnF 14 s
/-- F15 (R215): W[15], K[15] = 0x49b40821, S[15] = 22. -/
def execF15 (s : State) : Result := roundAt Config.tables 15 fnF 15 s

end Sys2Proof.Machine
end

