-- ==== Sys2Proof/Machine/RoundsG.lean ====
section
/-! DEFINITION. The meanings of ROUND 16 to ROUND 31, function G (spec/43_rounds_G.md R216 to R231). Each is the round
of R143 with the word index its own rule writes out; K[i] and S[i] are the tables' entries at its own index. -/

namespace Sys2Proof.Machine

/-- G16 (R216): W[1], K[16] = 0xf61e2562, S[16] = 5. -/
def execG16 (s : State) : Result := roundAt Config.tables 16 fnG 1 s
/-- G17 (R217): W[6], K[17] = 0xc040b340, S[17] = 9. -/
def execG17 (s : State) : Result := roundAt Config.tables 17 fnG 6 s
/-- G18 (R218): W[11], K[18] = 0x265e5a51, S[18] = 14. -/
def execG18 (s : State) : Result := roundAt Config.tables 18 fnG 11 s
/-- G19 (R219): W[0], K[19] = 0xe9b6c7aa, S[19] = 20. -/
def execG19 (s : State) : Result := roundAt Config.tables 19 fnG 0 s
/-- G20 (R220): W[5], K[20] = 0xd62f105d, S[20] = 5. -/
def execG20 (s : State) : Result := roundAt Config.tables 20 fnG 5 s
/-- G21 (R221): W[10], K[21] = 0x02441453, S[21] = 9. -/
def execG21 (s : State) : Result := roundAt Config.tables 21 fnG 10 s
/-- G22 (R222): W[15], K[22] = 0xd8a1e681, S[22] = 14. -/
def execG22 (s : State) : Result := roundAt Config.tables 22 fnG 15 s
/-- G23 (R223): W[4], K[23] = 0xe7d3fbc8, S[23] = 20. -/
def execG23 (s : State) : Result := roundAt Config.tables 23 fnG 4 s
/-- G24 (R224): W[9], K[24] = 0x21e1cde6, S[24] = 5. -/
def execG24 (s : State) : Result := roundAt Config.tables 24 fnG 9 s
/-- G25 (R225): W[14], K[25] = 0xc33707d6, S[25] = 9. -/
def execG25 (s : State) : Result := roundAt Config.tables 25 fnG 14 s
/-- G26 (R226): W[3], K[26] = 0xf4d50d87, S[26] = 14. -/
def execG26 (s : State) : Result := roundAt Config.tables 26 fnG 3 s
/-- G27 (R227): W[8], K[27] = 0x455a14ed, S[27] = 20. -/
def execG27 (s : State) : Result := roundAt Config.tables 27 fnG 8 s
/-- G28 (R228): W[13], K[28] = 0xa9e3e905, S[28] = 5. -/
def execG28 (s : State) : Result := roundAt Config.tables 28 fnG 13 s
/-- G29 (R229): W[2], K[29] = 0xfcefa3f8, S[29] = 9. -/
def execG29 (s : State) : Result := roundAt Config.tables 29 fnG 2 s
/-- G30 (R230): W[7], K[30] = 0x676f02d9, S[30] = 14. -/
def execG30 (s : State) : Result := roundAt Config.tables 30 fnG 7 s
/-- G31 (R231): W[12], K[31] = 0x8d2a4c8a, S[31] = 20. -/
def execG31 (s : State) : Result := roundAt Config.tables 31 fnG 12 s

end Sys2Proof.Machine
end

