-- ==== Sys2Proof/Machine/RoundsH.lean ====
section
/-! DEFINITION. The meanings of ROUND 32 to ROUND 47, function H (spec/44_rounds_H.md R232 to R247). Each is the round
of R143 with the word index its own rule writes out; K[i] and S[i] are the tables' entries at its own index. -/

namespace Sys2Proof.Machine

/-- H32 (R232): W[5], K[32] = 0xfffa3942, S[32] = 4. -/
def execH32 (s : State) : Result := roundAt Config.tables 32 fnH 5 s
/-- H33 (R233): W[8], K[33] = 0x8771f681, S[33] = 11. -/
def execH33 (s : State) : Result := roundAt Config.tables 33 fnH 8 s
/-- H34 (R234): W[11], K[34] = 0x6d9d6122, S[34] = 16. -/
def execH34 (s : State) : Result := roundAt Config.tables 34 fnH 11 s
/-- H35 (R235): W[14], K[35] = 0xfde5380c, S[35] = 23. -/
def execH35 (s : State) : Result := roundAt Config.tables 35 fnH 14 s
/-- H36 (R236): W[1], K[36] = 0xa4beea44, S[36] = 4. -/
def execH36 (s : State) : Result := roundAt Config.tables 36 fnH 1 s
/-- H37 (R237): W[4], K[37] = 0x4bdecfa9, S[37] = 11. -/
def execH37 (s : State) : Result := roundAt Config.tables 37 fnH 4 s
/-- H38 (R238): W[7], K[38] = 0xf6bb4b60, S[38] = 16. -/
def execH38 (s : State) : Result := roundAt Config.tables 38 fnH 7 s
/-- H39 (R239): W[10], K[39] = 0xbebfbc70, S[39] = 23. -/
def execH39 (s : State) : Result := roundAt Config.tables 39 fnH 10 s
/-- H40 (R240): W[13], K[40] = 0x289b7ec6, S[40] = 4. -/
def execH40 (s : State) : Result := roundAt Config.tables 40 fnH 13 s
/-- H41 (R241): W[0], K[41] = 0xeaa127fa, S[41] = 11. -/
def execH41 (s : State) : Result := roundAt Config.tables 41 fnH 0 s
/-- H42 (R242): W[3], K[42] = 0xd4ef3085, S[42] = 16. -/
def execH42 (s : State) : Result := roundAt Config.tables 42 fnH 3 s
/-- H43 (R243): W[6], K[43] = 0x04881d05, S[43] = 23. -/
def execH43 (s : State) : Result := roundAt Config.tables 43 fnH 6 s
/-- H44 (R244): W[9], K[44] = 0xd9d4d039, S[44] = 4. -/
def execH44 (s : State) : Result := roundAt Config.tables 44 fnH 9 s
/-- H45 (R245): W[12], K[45] = 0xe6db99e5, S[45] = 11. -/
def execH45 (s : State) : Result := roundAt Config.tables 45 fnH 12 s
/-- H46 (R246): W[15], K[46] = 0x1fa27cf8, S[46] = 16. -/
def execH46 (s : State) : Result := roundAt Config.tables 46 fnH 15 s
/-- H47 (R247): W[2], K[47] = 0xc4ac5665, S[47] = 23. -/
def execH47 (s : State) : Result := roundAt Config.tables 47 fnH 2 s

end Sys2Proof.Machine
end

