-- ==== Sys2Proof/Machine/RoundsI.lean ====
section
/-! DEFINITION. The meanings of ROUND 48 to ROUND 63, function I (spec/45_rounds_I.md R248 to R263). Each is the round
of R143 with the word index its own rule writes out; K[i] and S[i] are the tables' entries at its own index. -/

namespace Sys2Proof.Machine

/-- I48 (R248): W[0], K[48] = 0xf4292244, S[48] = 6. -/
def execI48 (s : State) : Result := roundAt Config.tables 48 fnI 0 s
/-- I49 (R249): W[7], K[49] = 0x432aff97, S[49] = 10. -/
def execI49 (s : State) : Result := roundAt Config.tables 49 fnI 7 s
/-- I50 (R250): W[14], K[50] = 0xab9423a7, S[50] = 15. -/
def execI50 (s : State) : Result := roundAt Config.tables 50 fnI 14 s
/-- I51 (R251): W[5], K[51] = 0xfc93a039, S[51] = 21. -/
def execI51 (s : State) : Result := roundAt Config.tables 51 fnI 5 s
/-- I52 (R252): W[12], K[52] = 0x655b59c3, S[52] = 6. -/
def execI52 (s : State) : Result := roundAt Config.tables 52 fnI 12 s
/-- I53 (R253): W[3], K[53] = 0x8f0ccc92, S[53] = 10. -/
def execI53 (s : State) : Result := roundAt Config.tables 53 fnI 3 s
/-- I54 (R254): W[10], K[54] = 0xffeff47d, S[54] = 15. -/
def execI54 (s : State) : Result := roundAt Config.tables 54 fnI 10 s
/-- I55 (R255): W[1], K[55] = 0x85845dd1, S[55] = 21. -/
def execI55 (s : State) : Result := roundAt Config.tables 55 fnI 1 s
/-- I56 (R256): W[8], K[56] = 0x6fa87e4f, S[56] = 6. -/
def execI56 (s : State) : Result := roundAt Config.tables 56 fnI 8 s
/-- I57 (R257): W[15], K[57] = 0xfe2ce6e0, S[57] = 10. -/
def execI57 (s : State) : Result := roundAt Config.tables 57 fnI 15 s
/-- I58 (R258): W[6], K[58] = 0xa3014314, S[58] = 15. -/
def execI58 (s : State) : Result := roundAt Config.tables 58 fnI 6 s
/-- I59 (R259): W[13], K[59] = 0x4e0811a1, S[59] = 21. -/
def execI59 (s : State) : Result := roundAt Config.tables 59 fnI 13 s
/-- I60 (R260): W[4], K[60] = 0xf7537e82, S[60] = 6. -/
def execI60 (s : State) : Result := roundAt Config.tables 60 fnI 4 s
/-- I61 (R261): W[11], K[61] = 0xbd3af235, S[61] = 10. -/
def execI61 (s : State) : Result := roundAt Config.tables 61 fnI 11 s
/-- I62 (R262): W[2], K[62] = 0x2ad7d2bb, S[62] = 15. -/
def execI62 (s : State) : Result := roundAt Config.tables 62 fnI 2 s
/-- I63 (R263): W[9], K[63] = 0xeb86d391, S[63] = 21. -/
def execI63 (s : State) : Result := roundAt Config.tables 63 fnI 9 s

end Sys2Proof.Machine
end

