-- ==== Sys2Proof/Machine/Serializer.lean ====
section
/-! DEFINITION. The meaning of SERIALIZE (spec/47_serializer.md R290). -/

namespace Sys2Proof.Machine

/-- SERIALIZE (R290). -/
def execSerialize (s : State) : Result := .next (serializeChain s)

end Sys2Proof.Machine
end

