-- ==== Sys2Proof/WellFormed.lean ====
section
/-! DEFINITION. Which instructions are well formed: the block a PARSE or a COMPRESS takes begins at BUF index 0 or 64, nowhere else
(spec/20_memory.md R67; spec/41_compressor.md R140, R141). Every other form is well formed. -/

namespace Sys2Proof

/-- The two places a block can begin (R67). -/
def validBase (base : Byte) : Bool := base == 0 || base == 64

/-- The check on an instruction's operands. -/
def Instr.wellFormed : Instr → Bool
  | .parse base => validBase base
  | .compress base => validBase base
  | _ => true

end Sys2Proof
end

