-- ==== Sys2Proof/Decode.lean ====
section
/-! DEFINITION. Decoding, total on any bits and rejecting by name, and the encoder, written from the same tables
(spec/30_encoding.md R90 to R95, R99; spec/opcode_table.json). -/

namespace Sys2Proof

/-- Why a word is not an instruction. No command word is ever rejected (R93). -/
inductive DecodeError where
  /-- a CMD word with a bit above bit 9: there is no other command length (R90) -/
  | notTenBits
  /-- a UOP word with bit 7 set: a label has 7 bits (R94) -/
  | notSevenBits
  /-- a label 0x4A to 0x7F names nothing (R99) -/
  | unusedLabel
  /-- an operand byte other than zero beside an operation that has no operand (log 12) -/
  | unexpectedOperand
  /-- a PARSE or COMPRESS of a block that begins neither at 0 nor at 64 (R67) -/
  | badBlockBase
  deriving DecidableEq, Repr

/-- The command a 10-bit word stands for: `op` = cmd[9:8] decides, `data` = cmd[7:0] is DATA's byte and is ignored by the
others (R90 to R92). Total (R93). -/
def decodeCmd (w : CmdWord) : Instr :=
  match (w.extractLsb' 8 2).toNat with
  | 0 => .init
  | 1 => .data (w.extractLsb' 0 8)
  | 2 => .endMsg
  | _ => .fail

/-- Labels 0x00 to 0x0F, by j = uop[3:0] (R94, R95). -/
def roundsF : Vector Instr 16 :=
  #v[.f00, .f01, .f02, .f03, .f04, .f05, .f06, .f07,
     .f08, .f09, .f10, .f11, .f12, .f13, .f14, .f15]

/-- Labels 0x10 to 0x1F, by j = uop[3:0] (R94, R95). -/
def roundsG : Vector Instr 16 :=
  #v[.g16, .g17, .g18, .g19, .g20, .g21, .g22, .g23,
     .g24, .g25, .g26, .g27, .g28, .g29, .g30, .g31]

/-- Labels 0x20 to 0x2F, by j = uop[3:0] (R94, R95). -/
def roundsH : Vector Instr 16 :=
  #v[.h32, .h33, .h34, .h35, .h36, .h37, .h38, .h39,
     .h40, .h41, .h42, .h43, .h44, .h45, .h46, .h47]

/-- Labels 0x30 to 0x3F, by j = uop[3:0] (R94, R95). -/
def roundsI : Vector Instr 16 :=
  #v[.i48, .i49, .i50, .i51, .i52, .i53, .i54, .i55,
     .i56, .i57, .i58, .i59, .i60, .i61, .i62, .i63]

/-- The ROUND whose label has the group `fn` = uop[5:4] and the position `j` = uop[3:0] (R95). -/
def roundOf (fn : BitVec 2) (j : BitVec 4) : Instr :=
  match fn.toNat with
  | 0 => roundsF.get j.toFin
  | 1 => roundsG.get j.toFin
  | 2 => roundsH.get j.toFin
  | _ => roundsI.get j.toFin

/-- An operation without an operand: its operand byte must be zero (log 12). -/
def plain (i : Instr) (operand : Byte) : Except DecodeError Instr :=
  if operand = 0 then .ok i else .error .unexpectedOperand

/-- An operation on a block: its operand byte must be 0 or 64 (R67). -/
def onBlock (i : Byte → Instr) (operand : Byte) : Except DecodeError Instr :=
  if validBase operand then .ok (i operand) else .error .badBlockBase

/-- The operation a label 0x40 to 0x7F names (R94, R99); `n` is uop[5:0]. -/
def otherOf (n : BitVec 6) (operand : Byte) : Except DecodeError Instr :=
  match n.toNat with
  | 0 => .ok (.append operand)
  | 1 => plain .pad80 operand
  | 2 => plain .padz operand
  | 3 => plain .padlen operand
  | 4 => plain .pad operand
  | 5 => onBlock .parse operand
  | 6 => plain .loadw operand
  | 7 => plain .feedfwd operand
  | 8 => onBlock .compress operand
  | 9 => plain .serialize operand
  | _ => .error .unusedLabel

/-- The internal operation a UOP word stands for (R94, R95, R99; log 8). -/
def decodeUop (w : BitVec 16) : Except DecodeError Instr :=
  let operand : Byte := w.extractLsb' 8 8
  if w.getLsbD 7 then .error .notSevenBits
  else if w.getLsbD 6 then otherOf (w.extractLsb' 0 6) operand
  else plain (roundOf (w.extractLsb' 4 2) (w.extractLsb' 0 4)) operand

/-- The instruction a word of the table stands for. -/
def decode (w : TableWord) : Except DecodeError Instr :=
  match w.format with
  | .cmd => if (w.bits.extractLsb' 10 6) = 0 then .ok (decodeCmd (w.bits.extractLsb' 0 10)) else .error .notTenBits
  | .uop => decodeUop w.bits

/-- A command's word, the canonical one where `data` is ignored (R92). -/
def cmdWord (op : BitVec 2) (data : Byte) : TableWord := ⟨.cmd, (0 : BitVec 6) ++ op ++ data⟩

/-- An internal operation's word: label and operand byte (R94; log 8). -/
def uopWord (label : BitVec 7) (operand : Byte) : TableWord := ⟨.uop, operand ++ (0 : BitVec 1) ++ label⟩

/-- The words of an instruction (R91, R92, R94). -/
def encode : Instr → TableWord
  | .init => cmdWord 0b00 0
  | .data v => cmdWord 0b01 v
  | .endMsg => cmdWord 0b10 0
  | .fail => cmdWord 0b11 0
  | .f00 => uopWord 0x00 0
  | .f01 => uopWord 0x01 0
  | .f02 => uopWord 0x02 0
  | .f03 => uopWord 0x03 0
  | .f04 => uopWord 0x04 0
  | .f05 => uopWord 0x05 0
  | .f06 => uopWord 0x06 0
  | .f07 => uopWord 0x07 0
  | .f08 => uopWord 0x08 0
  | .f09 => uopWord 0x09 0
  | .f10 => uopWord 0x0a 0
  | .f11 => uopWord 0x0b 0
  | .f12 => uopWord 0x0c 0
  | .f13 => uopWord 0x0d 0
  | .f14 => uopWord 0x0e 0
  | .f15 => uopWord 0x0f 0
  | .g16 => uopWord 0x10 0
  | .g17 => uopWord 0x11 0
  | .g18 => uopWord 0x12 0
  | .g19 => uopWord 0x13 0
  | .g20 => uopWord 0x14 0
  | .g21 => uopWord 0x15 0
  | .g22 => uopWord 0x16 0
  | .g23 => uopWord 0x17 0
  | .g24 => uopWord 0x18 0
  | .g25 => uopWord 0x19 0
  | .g26 => uopWord 0x1a 0
  | .g27 => uopWord 0x1b 0
  | .g28 => uopWord 0x1c 0
  | .g29 => uopWord 0x1d 0
  | .g30 => uopWord 0x1e 0
  | .g31 => uopWord 0x1f 0
  | .h32 => uopWord 0x20 0
  | .h33 => uopWord 0x21 0
  | .h34 => uopWord 0x22 0
  | .h35 => uopWord 0x23 0
  | .h36 => uopWord 0x24 0
  | .h37 => uopWord 0x25 0
  | .h38 => uopWord 0x26 0
  | .h39 => uopWord 0x27 0
  | .h40 => uopWord 0x28 0
  | .h41 => uopWord 0x29 0
  | .h42 => uopWord 0x2a 0
  | .h43 => uopWord 0x2b 0
  | .h44 => uopWord 0x2c 0
  | .h45 => uopWord 0x2d 0
  | .h46 => uopWord 0x2e 0
  | .h47 => uopWord 0x2f 0
  | .i48 => uopWord 0x30 0
  | .i49 => uopWord 0x31 0
  | .i50 => uopWord 0x32 0
  | .i51 => uopWord 0x33 0
  | .i52 => uopWord 0x34 0
  | .i53 => uopWord 0x35 0
  | .i54 => uopWord 0x36 0
  | .i55 => uopWord 0x37 0
  | .i56 => uopWord 0x38 0
  | .i57 => uopWord 0x39 0
  | .i58 => uopWord 0x3a 0
  | .i59 => uopWord 0x3b 0
  | .i60 => uopWord 0x3c 0
  | .i61 => uopWord 0x3d 0
  | .i62 => uopWord 0x3e 0
  | .i63 => uopWord 0x3f 0
  | .append v => uopWord 0x40 v
  | .pad80 => uopWord 0x41 0
  | .padz => uopWord 0x42 0
  | .padlen => uopWord 0x43 0
  | .pad => uopWord 0x44 0
  | .parse base => uopWord 0x45 base
  | .loadw => uopWord 0x46 0
  | .feedfwd => uopWord 0x47 0
  | .compress base => uopWord 0x48 base
  | .serialize => uopWord 0x49 0

/-- The instruction the decoder reads from an instruction whose bits are `w`, numbered as spec/opcode_table.json numbers them.
A row of at most one byte is an internal operation's 7-bit label, a longer row is a 10-bit command word; the operand byte of an
internal operation lies above the label's byte (log 8). -/
def decodeTableWord (nbits w : Nat) : Option Instr :=
  if w < 2 ^ 16 ∧ nbits ≤ 16 then
    match decode ⟨if nbits ≤ 8 then .uop else .cmd, BitVec.ofNat 16 w⟩ with
    | .ok i => some i
    | .error _ => none
  else none

end Sys2Proof
end

