-- ==== Sys2Proof/Machine/Port.lean ====
section
/-! DEFINITION. The engine's ports (spec/10_state.md R31, R33 to R35; spec/47_serializer.md R291) and how the next instruction
comes to be run: the handshake, reset, and an internal operation issued on its own (spec/70_reset_and_hazards.md R330, R332). -/

namespace Sys2Proof.Machine

/-- Port `status` (R33, R34). -/
def State.status (s : State) : Byte := statusWord s.phase s.perr s.lovf

/-- `digest_valid` = (PHASE = Done) (R33). -/
def State.digestValid (s : State) : Bool := s.phase = .done

/-- `failed` = (PHASE = Failed) (R33). -/
def State.failed (s : State) : Bool := s.phase = .failed

/-- What a reader of DIGEST[0..15] gets: the stored bytes in Done, the free value DIGEST_WHEN_NOT_DONE otherwise (R31; log 1). -/
def State.digestOut (s : State) : Vector Byte 16 :=
  if s.digestValid then s.digest else Config.digestWhenNotDone s.freeIndex

/-- Sixteen bytes on 128 wires, byte n in bits 8n+7:8n (R291). -/
def packDigest (v : Vector Byte 16) : BitVec 128 :=
  v.toList.foldr (fun x acc => (acc <<< 8) ||| x.setWidth 128) 0

/-- Port `digest` (R34, R291). -/
def State.digestPort (s : State) : BitVec 128 := packDigest s.digestOut

/-- Port `cmd_ready`: a command can be accepted, since no operation is being carried out (R34). It is 1 once reset is released (R38,
R330); what it reads while `rst` is still asserted the spec leaves open, and it does not depend on `rst` here. DESIGN CHOICE (log 22). -/
def State.cmdReady (s : State) : Bool := s.issue.isNone

/-- The host asserts `rst` now. -/
def State.rstAsserted (s : State) : Bool :=
  match s.inputs with
  | p :: _ => p.rst
  | [] => false

/-- What the engine does next. -/
inductive Fetched where
  /-- no command is accepted: this is the state that stands -/
  | stay (s : State)
  /-- this instruction is carried out, on this state -/
  | run (i : Instr) (s : State)
  /-- the issued word is no operation -/
  | bad
  deriving DecidableEq, Repr

/-- One sample of the input ports while `cmd_ready` is 1: `rst` overrides everything (R307); a command is accepted when
`cmd_valid` is 1 (R34), and the free value of DIGEST is then a new one (R70; log 1); otherwise nothing changes (R311). -/
def takeSample (p : PortSample) (rest : List PortSample) (s : State) : Fetched :=
  if p.rst then .stay (resetNow s rest)
  else if p.cmdValid then .run (decodeCmd p.cmd) { s with inputs := rest, freeIndex := s.freeIndex + 1 }
  else .stay { s with inputs := rest }

/-- The next thing to do. An operation in `issue` comes first, with `cmd_ready` at 0, so the host's command is held (R332); a
reset overrides it too (R307, R330). With nothing offered the engine is idle, all state held (R311). -/
def fetch (s : State) : Fetched :=
  match s.issue with
  | some u =>
    if s.rstAsserted then .stay (resetNow s s.inputs.tail)
    else match decode ⟨.uop, u⟩ with
      | .ok i => .run i { s with issue := none }
      | .error _ => .bad
  | none =>
    match s.inputs with
    | [] => .stay s
    | p :: rest => takeSample p rest s

/-- The next thing the engine does is to carry out a word of the table: a command offered on the ports, or an internal
operation in `issue`; a ROUND is issued with RND at its index, which it requires (R143). See log 7 and log 8. -/
def placeWord (s : State) (nbits w : Nat) : State :=
  if nbits ≤ 8 then
    { s with
      issue := some (BitVec.ofNat 16 w)
      rnd := if w < 64 then BitVec.ofNat 6 w else s.rnd
      inputs := { rst := false, cmdValid := false, cmd := 0 } :: s.inputs }
  else
    { s with
      issue := none
      inputs := { rst := false, cmdValid := true, cmd := BitVec.ofNat 10 w } :: s.inputs }

end Sys2Proof.Machine
end

