-- ==== Sys2Proof/Machine/Step.lean ====
section
/-! DEFINITION. One step of the engine: one command carried out whole (spec/00_scope.md R12; D5; log 5), or one sample of the
ports without one, or one issued internal operation. -/

namespace Sys2Proof.Machine

/-- One step. -/
def step (s : State) : Host.Outcome State Fault Refusal :=
  match fetch s with
  | .stay t => .next t
  | .run i t => exec i t
  | .bad => .refused .undefinedOperation

/-- `s` with an instruction of the opcode table where the step takes its next one (log 7). -/
def State.withFetchWord (s : State) (nbits w : Nat) : State := placeWord s nbits w

end Sys2Proof.Machine
end

