-- ==== Sys2Proof/Machine/Reference.lean ====
section
/-! DEFINITION. The engine's computation as pure functions of bytes and words, with no state: pad (spec/40_padder.md R124), compress
(spec/41_compressor.md R140 to R143), serialize (spec/47_serializer.md R290, R293) and the whole digest (spec/46_accumulator.md R278). -/

namespace Sys2Proof.Machine

/-- Four words: the State (A, B, C, D), or the working variables (a, b, c, d). -/
structure Quad where
  A : Word
  B : Word
  C : Word
  D : Word
  deriving DecidableEq, Repr

/-- The initial constants (R21). -/
def initialQuad : Quad := ⟨Config.ivA, Config.ivB, Config.ivC, Config.ivD⟩

/-- pad(rem, L), for a remainder of 0 to 63 bytes (R124). -/
def padFn (rem : List Byte) (bits : BitVec 64) : List Byte :=
  rem ++ [0x80] ++ List.replicate ((119 - rem.length) % 64) 0x00 ++ lengthField bits

/-- Bytes as one little-endian number (R11). -/
def littleEndian : List Byte → Nat
  | [] => 0
  | x :: xs => x.toNat + 2 ^ 8 * littleEndian xs

/-- Word j of a block (R61). -/
def wordOf (block : List Byte) (j : Nat) : Word := BitVec.ofNat 32 (littleEndian ((block.drop (4 * j)).take 4))

/-- One round on the four working variables (R143). -/
def roundFn (T : Tables) (block : List Byte) (q : Quad) (i : BitVec 6) : Quad :=
  ⟨q.D, mixed (mixOf (groupOf i)) q.A q.B q.C q.D (constantOf T i) (wordOf block (wordIndex i).val) (amountOf T i), q.B, q.C⟩

/-- The 64 rounds of a block on the four working variables (R140). -/
def roundsFn (T : Tables) (block : List Byte) (q : Quad) : Quad := roundIndices.foldl (roundFn T block) q

/-- Word by word addition (R153). -/
def Quad.add (q r : Quad) : Quad := ⟨add32 q.A r.A, add32 q.B r.B, add32 q.C r.C, add32 q.D r.D⟩

/-- compress(block, state) (R140): the working variables start as the state, and are added back after 64 rounds (R153). -/
def compressFn (T : Tables) (block : List Byte) (q : Quad) : Quad := q.add (roundsFn T block q)

/-- s(k): the state after the first k blocks of a message (R278). -/
def chainAfter (T : Tables) (m : List Byte) : Nat → Quad
  | 0 => initialQuad
  | k + 1 => compressFn T ((m.drop (64 * k)).take 64) (chainAfter T m k)

/-- The padded tail of a message (R278). -/
def paddedTail (m : List Byte) : List Byte :=
  padFn (m.drop (64 * (m.length / 64))) (BitVec.ofNat 64 (8 * m.length))

/-- The state after the one or two blocks of the tail (R278). -/
def finalQuad (T : Tables) (m : List Byte) : Quad :=
  let t := paddedTail m
  let q := compressFn T (t.take 64) (chainAfter T m (m.length / 64))
  if m.length % 64 ≤ 55 then q else compressFn T ((t.drop 64).take 64) q

/-- serialize: four words to sixteen bytes (R290). -/
def serializeFn (q : Quad) : Vector Byte 16 := digestBytes q.A q.B q.C q.D

/-- The digest of a message of fewer than 2^61 bytes (R278). -/
def digestFn (T : Tables) (m : List Byte) : Vector Byte 16 := serializeFn (finalQuad T m)

/-- Word m of a digest: reading it backwards (R293). -/
def digestWord (v : Vector Byte 16) (m : Nat) : Word :=
  BitVec.ofNat 32 (littleEndian ((v.toList.drop (4 * m)).take 4))

/-- The four State words a digest came from (R293). -/
def quadOfDigest (v : Vector Byte 16) : Quad := ⟨digestWord v 0, digestWord v 1, digestWord v 2, digestWord v 3⟩

/-- The State words of an engine. -/
def State.chain (s : State) : Quad := ⟨s.A, s.B, s.C, s.D⟩

/-- The first `n` bytes of BUF from an index on. -/
def Memory.slice (m : Memory) (base n : Nat) : List Byte := (List.range n).map fun k => m.read (base + k)

end Sys2Proof.Machine
end

