-- ==== Sys2Proof/Machine/Caller.lean ====
section
/-! DEFINITION. What belongs to the engine's user and the spec defines: the hexadecimal rendering and its reading backwards
(spec/47_serializer.md R292, R293; spec/20_memory.md R64) and the notation for command sequences (spec/30_encoding.md R100, R101). No operation of the engine uses it. -/

namespace Sys2Proof.Machine

/-- The character of a hexadecimal digit, lowercase (R292). -/
def hexDigit (n : BitVec 4) : Char :=
  if n.toNat < 10 then Char.ofNat (48 + n.toNat) else Char.ofNat (87 + n.toNat)

/-- The two characters of a byte, the upper four bits first (R64, R292). -/
def hexByte (x : Byte) : List Char := [hexDigit (x.extractLsb' 4 4), hexDigit (x.extractLsb' 0 4)]

/-- HEX: 32 characters, byte by byte from DIGEST[0] to DIGEST[15] (R64, R292). -/
def hexOf (v : Vector Byte 16) : List Char := v.toList.flatMap hexByte

/-- The value of a hexadecimal digit 0 to 9, a to f; any other character has none (R293; log 21). -/
def hexValue (c : Char) : Option (BitVec 4) :=
  if 48 ≤ c.toNat ∧ c.toNat ≤ 57 then some (BitVec.ofNat 4 (c.toNat - 48))
  else if 97 ≤ c.toNat ∧ c.toNat ≤ 102 then some (BitVec.ofNat 4 (c.toNat - 87))
  else none

/-- The byte of a pair of characters, the first giving the upper four bits (R292, R293). -/
def byteOfHex (hi lo : Char) : Option Byte := do return (← hexValue hi) ++ (← hexValue lo)

/-- The characters in pairs as bytes (R293). -/
def bytesOfHex : List Char → Option (List Byte)
  | [] => some []
  | [_] => none
  | hi :: lo :: rest => do return (← byteOfHex hi lo) :: (← bytesOfHex rest)

/-- The sixteen bytes of a 32-character digest string; another string has none (R293; log 21). -/
def digestOfHex (cs : List Char) : Option (Vector Byte 16) :=
  (bytesOfHex cs).bind fun bs => if h : bs.length = 16 then some ⟨bs.toArray, h⟩ else none

/-- Reading a known answer backwards: the final State of a 32-character digest string (R293). -/
def quadOfHex (cs : List Char) : Option Quad := (digestOfHex cs).map quadOfDigest

/-- A line of a command sequence: a command, or a pseudo-instruction (R100, R101). `read` is READ n followed by its n bytes. -/
inductive TraceLine where
  | command (i : Instr)
  | bytes (vs : List Byte)
  | text (chars : List Char)
  | rep (n : Nat) (v : Byte)
  | read (vs : List Byte)
  | message (vs : List Byte)
  deriving DecidableEq, Repr

/-- The code of an ASCII character (R101); of another character its lowest eight bits (log 19). -/
def charByte (c : Char) : Byte := BitVec.ofNat 8 c.toNat

/-- What a line expands to (R101). A READ of no bytes expands to nothing: a line READ marks bytes, and the read that yields 0 bytes and
ends the stream is written END. DESIGN CHOICE (log 23). -/
def TraceLine.expand : TraceLine → List Instr
  | .command i => [i]
  | .bytes vs => vs.map .data
  | .text cs => cs.map fun c => .data (charByte c)
  | .rep n v => List.replicate n (.data v)
  | .read vs => vs.map .data
  | .message vs => [.init] ++ vs.map .data ++ [.endMsg]

/-- A whole command sequence, expanded (R101). -/
def expandTrace (ls : List TraceLine) : List Instr := ls.flatMap TraceLine.expand

/-- The 10-bit word of a command, as a listing shows it (R92, R100). -/
def commandWord (i : Instr) : CmdWord := (encode i).bits.extractLsb' 0 10

end Sys2Proof.Machine
end

