-- ==== Sys2Proof/Machine/Run.lean ====
section
/-! DEFINITION. Several instructions one after another, and several steps (spec/20_memory.md R72). -/

namespace Sys2Proof.Machine

/-- Instructions carried out one after another, each completely before the next (R72a). -/
def runInstrs : List Instr → State → Result
  | [], s => .next s
  | i :: is, s => andThen (exec i s) (runInstrs is)

/-- So many steps, stopping at the first that stops. -/
def steps : Nat → State → Result
  | 0, s => .next s
  | n + 1, s => andThen (step s) (steps n)

/-- The 67 operations of a COMPRESS, as instructions (R140). -/
def compressProgram (base : Byte) : List Instr :=
  [.parse base, .loadw] ++ (roundsF.toList ++ roundsG.toList ++ roundsH.toList ++ roundsI.toList) ++ [.feedfwd]

/-- A sample in which the host offers a command word (R34). -/
def offer (w : CmdWord) : PortSample := { rst := false, cmdValid := true, cmd := w }

/-- The commands a list of samples has the engine accept, when none of them asserts `rst` (R34). -/
def acceptedCommands (ps : List PortSample) : List Instr := (ps.filter (·.cmdValid)).map fun p => decodeCmd p.cmd

end Sys2Proof.Machine
end

