-- ==== Sys2Proof/Machine/System.lean ====
section
/-! DEFINITION. Several engines: N_ENGINES of them, any number, with no identifiers and nothing shared but the read-only tables
(spec/20_memory.md R75; spec/60_exceptions.md R310; D21; log 17). -/

namespace Sys2Proof.Machine

/-- The engines of a system. Its length is N_ENGINES. -/
abbrev System := List State

/-- Engine `k` makes a step; a number that names no engine changes nothing. -/
def System.stepEngine (sys : System) (k : Nat) : Host.Outcome System Fault Refusal :=
  match sys[k]? with
  | none => .next sys
  | some s =>
    match step s with
    | .next t => .next (sys.set k t)
    | .fault f => .fault f
    | .refused q => .refused q

end Sys2Proof.Machine
end

