-- ==== Sys2Proof/Safety.lean ====
section
/-! DEFINITION. What a safe run is, in the terms the statements use: what holds between commands (spec/10_state.md R37), when a run
is over and what is seen of it (spec/70_reset_and_hazards.md R341), and which state the spec gives a value (R38). -/

namespace Sys2Proof.Machine

/-- The step goes on: it neither faults nor refuses. -/
def State.goesOn (s : State) : Prop := ∃ t, step s = .next t

/-- What holds between commands (R24, R31 to R33, R37). -/
structure State.Inv (s : State) : Prop where
  /-- BUF keeps its canonical form -/
  bufWf : s.buf.wf = true
  /-- nothing is in flight between commands (R36) -/
  quiet : s.issue = none
  /-- PHASE is Reading, Done or Failed (R24) -/
  stable : s.phase.stable = true
  /-- in Reading 0 to 63 bytes are buffered (R37a) -/
  readingCnt : s.phase = .reading → s.cnt.toNat ≤ 63
  /-- in Reading, as long as LOVF = 0, CNT = LEN mod 64 (R37a) -/
  readingLen : s.phase = .reading → s.lovf = false → s.cnt.toNat = s.len.toNat % 64
  /-- PERR is never seen with PHASE = Reading (R33) -/
  readingPerr : s.phase = .reading → s.perr = false
  /-- LOVF = 0 means that fewer than 2^61 bytes were counted (R32) -/
  lovfClear : s.lovf = false → s.len.toNat < 2 ^ 61
  /-- in Done CNT is the padded length (R37b) -/
  doneCnt : s.phase = .done → s.cnt = 64 ∨ s.cnt = 128
  /-- in Done DIGEST is the serialization of A, B, C, D (R37b) -/
  doneDigest : s.phase = .done → s.digest = digestBytes s.A s.B s.C s.D

/-- A run is over: completed or aborted (R341). -/
def State.runOver (s : State) : Bool := s.phase = .done ∨ s.phase = .failed

/-- The observation of a finished run (R341). -/
structure Observation where
  phase  : Phase
  perr   : Bool
  lovf   : Bool
  digest : Option (Vector Byte 16)
  deriving DecidableEq, Repr

/-- (PHASE, PERR, LOVF, and DIGEST when PHASE = Done), and nothing else (R341). -/
def State.observe (s : State) : Observation :=
  { phase := s.phase, perr := s.perr, lovf := s.lovf, digest := if s.digestValid then some s.digest else none }

/-- Two states agree on everything the spec gives a value: they may differ in a, b, c, d, RND, W, in the bytes of BUF at CNT and
above, in DIGEST when PHASE is not Done (R37c, R38, D31), and in the model's own counter. -/
structure Agree (s t : State) : Prop where
  chain : s.chain = t.chain
  phase : s.phase = t.phase
  cnt : s.cnt = t.cnt
  valid : s.buf.slice 0 s.cnt.toNat = t.buf.slice 0 t.cnt.toNat
  len : s.len = t.len
  digest : s.phase = .done → s.digest = t.digest
  perr : s.perr = t.perr
  lovf : s.lovf = t.lovf

end Sys2Proof.Machine
end

