-- ==== Sys2Proof/Certificates/Slice0/Obligations.lean ====
section
/-! DEFINITION. The statements for the provers. Each docstring names the rules of spec/ it formalises, and says so where a clause is
the model's own choice. -/

open Sys2Proof Sys2Proof.Machine

/-! Where a statement reads BUF's bytes after a write it takes `s.buf.wf`, the canonical form of the model's list (log 3), as a premise:
`StepKeepsBufCanonical` says that every step keeps it. -/

/-! ### What the statements are written with -/

/-- A round as its own rule of spec/42_rounds_F.md to spec/45_rounds_I.md writes it out: label fields fn and j, the RND it requires,
the word index, the constant, the amount, and RND after it. -/
structure Sys2Proof.RoundRow where
  instr  : Instr
  fn     : BitVec 2
  j      : BitVec 4
  i      : BitVec 6
  g      : Fin 16
  k      : Word
  amount : Nat
  next   : BitVec 6

/-- F00 to F07 (R200 to R207). -/
def Sys2Proof.roundsFLow : List RoundRow :=
  [⟨.f00, 0, 0, 0, 0, 0xd76aa478, 7, 1⟩,
   ⟨.f01, 0, 1, 1, 1, 0xe8c7b756, 12, 2⟩,
   ⟨.f02, 0, 2, 2, 2, 0x242070db, 17, 3⟩,
   ⟨.f03, 0, 3, 3, 3, 0xc1bdceee, 22, 4⟩,
   ⟨.f04, 0, 4, 4, 4, 0xf57c0faf, 7, 5⟩,
   ⟨.f05, 0, 5, 5, 5, 0x4787c62a, 12, 6⟩,
   ⟨.f06, 0, 6, 6, 6, 0xa8304613, 17, 7⟩,
   ⟨.f07, 0, 7, 7, 7, 0xfd469501, 22, 8⟩]

/-- F08 to F15 (R208 to R215). -/
def Sys2Proof.roundsFHigh : List RoundRow :=
  [⟨.f08, 0, 8, 8, 8, 0x698098d8, 7, 9⟩,
   ⟨.f09, 0, 9, 9, 9, 0x8b44f7af, 12, 10⟩,
   ⟨.f10, 0, 10, 10, 10, 0xffff5bb1, 17, 11⟩,
   ⟨.f11, 0, 11, 11, 11, 0x895cd7be, 22, 12⟩,
   ⟨.f12, 0, 12, 12, 12, 0x6b901122, 7, 13⟩,
   ⟨.f13, 0, 13, 13, 13, 0xfd987193, 12, 14⟩,
   ⟨.f14, 0, 14, 14, 14, 0xa679438e, 17, 15⟩,
   ⟨.f15, 0, 15, 15, 15, 0x49b40821, 22, 16⟩]

/-- G16 to G23 (R216 to R223). -/
def Sys2Proof.roundsGLow : List RoundRow :=
  [⟨.g16, 1, 0, 16, 1, 0xf61e2562, 5, 17⟩,
   ⟨.g17, 1, 1, 17, 6, 0xc040b340, 9, 18⟩,
   ⟨.g18, 1, 2, 18, 11, 0x265e5a51, 14, 19⟩,
   ⟨.g19, 1, 3, 19, 0, 0xe9b6c7aa, 20, 20⟩,
   ⟨.g20, 1, 4, 20, 5, 0xd62f105d, 5, 21⟩,
   ⟨.g21, 1, 5, 21, 10, 0x02441453, 9, 22⟩,
   ⟨.g22, 1, 6, 22, 15, 0xd8a1e681, 14, 23⟩,
   ⟨.g23, 1, 7, 23, 4, 0xe7d3fbc8, 20, 24⟩]

/-- G24 to G31 (R224 to R231). -/
def Sys2Proof.roundsGHigh : List RoundRow :=
  [⟨.g24, 1, 8, 24, 9, 0x21e1cde6, 5, 25⟩,
   ⟨.g25, 1, 9, 25, 14, 0xc33707d6, 9, 26⟩,
   ⟨.g26, 1, 10, 26, 3, 0xf4d50d87, 14, 27⟩,
   ⟨.g27, 1, 11, 27, 8, 0x455a14ed, 20, 28⟩,
   ⟨.g28, 1, 12, 28, 13, 0xa9e3e905, 5, 29⟩,
   ⟨.g29, 1, 13, 29, 2, 0xfcefa3f8, 9, 30⟩,
   ⟨.g30, 1, 14, 30, 7, 0x676f02d9, 14, 31⟩,
   ⟨.g31, 1, 15, 31, 12, 0x8d2a4c8a, 20, 32⟩]

/-- H32 to H39 (R232 to R239). -/
def Sys2Proof.roundsHLow : List RoundRow :=
  [⟨.h32, 2, 0, 32, 5, 0xfffa3942, 4, 33⟩,
   ⟨.h33, 2, 1, 33, 8, 0x8771f681, 11, 34⟩,
   ⟨.h34, 2, 2, 34, 11, 0x6d9d6122, 16, 35⟩,
   ⟨.h35, 2, 3, 35, 14, 0xfde5380c, 23, 36⟩,
   ⟨.h36, 2, 4, 36, 1, 0xa4beea44, 4, 37⟩,
   ⟨.h37, 2, 5, 37, 4, 0x4bdecfa9, 11, 38⟩,
   ⟨.h38, 2, 6, 38, 7, 0xf6bb4b60, 16, 39⟩,
   ⟨.h39, 2, 7, 39, 10, 0xbebfbc70, 23, 40⟩]

/-- H40 to H47 (R240 to R247). -/
def Sys2Proof.roundsHHigh : List RoundRow :=
  [⟨.h40, 2, 8, 40, 13, 0x289b7ec6, 4, 41⟩,
   ⟨.h41, 2, 9, 41, 0, 0xeaa127fa, 11, 42⟩,
   ⟨.h42, 2, 10, 42, 3, 0xd4ef3085, 16, 43⟩,
   ⟨.h43, 2, 11, 43, 6, 0x04881d05, 23, 44⟩,
   ⟨.h44, 2, 12, 44, 9, 0xd9d4d039, 4, 45⟩,
   ⟨.h45, 2, 13, 45, 12, 0xe6db99e5, 11, 46⟩,
   ⟨.h46, 2, 14, 46, 15, 0x1fa27cf8, 16, 47⟩,
   ⟨.h47, 2, 15, 47, 2, 0xc4ac5665, 23, 48⟩]

/-- I48 to I55 (R248 to R255). -/
def Sys2Proof.roundsILow : List RoundRow :=
  [⟨.i48, 3, 0, 48, 0, 0xf4292244, 6, 49⟩,
   ⟨.i49, 3, 1, 49, 7, 0x432aff97, 10, 50⟩,
   ⟨.i50, 3, 2, 50, 14, 0xab9423a7, 15, 51⟩,
   ⟨.i51, 3, 3, 51, 5, 0xfc93a039, 21, 52⟩,
   ⟨.i52, 3, 4, 52, 12, 0x655b59c3, 6, 53⟩,
   ⟨.i53, 3, 5, 53, 3, 0x8f0ccc92, 10, 54⟩,
   ⟨.i54, 3, 6, 54, 10, 0xffeff47d, 15, 55⟩,
   ⟨.i55, 3, 7, 55, 1, 0x85845dd1, 21, 56⟩]

/-- I56 to I63 (R256 to R263). -/
def Sys2Proof.roundsIHigh : List RoundRow :=
  [⟨.i56, 3, 8, 56, 8, 0x6fa87e4f, 6, 57⟩,
   ⟨.i57, 3, 9, 57, 15, 0xfe2ce6e0, 10, 58⟩,
   ⟨.i58, 3, 10, 58, 6, 0xa3014314, 15, 59⟩,
   ⟨.i59, 3, 11, 59, 13, 0x4e0811a1, 21, 60⟩,
   ⟨.i60, 3, 12, 60, 4, 0xf7537e82, 6, 61⟩,
   ⟨.i61, 3, 13, 61, 11, 0xbd3af235, 10, 62⟩,
   ⟨.i62, 3, 14, 62, 2, 0x2ad7d2bb, 15, 63⟩,
   ⟨.i63, 3, 15, 63, 9, 0xeb86d391, 21, 0⟩]

/-- What a round's rule says of it, with its function `f`: its label; and, with RND as it requires, its next state, every register
not named in it unchanged. -/
def Sys2Proof.RoundRow.Holds (f : Word → Word → Word → Word) (r : RoundRow) : Prop :=
  encode r.instr = uopWord ((0 : BitVec 1) ++ r.fn ++ r.j) 0 ∧
  ∀ s : State, s.rnd = r.i → exec r.instr s = .next
    { s with
      a := s.d
      b := s.b + rotl32 (f s.b s.c s.d + s.a + r.k + s.w.get r.g) r.amount
      c := s.b
      d := s.c
      rnd := r.next }

/-- An internal operation's label is `l` (R94). -/
def Sys2Proof.HasLabel (i : Instr) (l : BitVec 7) : Prop := (encode i).format = .uop ∧ (encode i).bits.extractLsb' 0 7 = l

/-- A command's canonical word is `w` (R92). -/
def Sys2Proof.HasWord (i : Instr) (w : CmdWord) : Prop := encode i = ⟨.cmd, w.setWidth 16⟩

/-- `x` is the ROUND instruction of the index `i` (R95). -/
def Sys2Proof.isRound (i : BitVec 6) (x : Instr) : Prop := x = roundOf (i.extractLsb' 4 2) (i.extractLsb' 0 4)

/-- Everything but BUF and CNT is as before. -/
def Sys2Proof.SameButBuf (s t : State) : Prop := t = { s with buf := t.buf, cnt := t.cnt }

/-- BUF's bytes outside the `n` bytes from `base` on read as before. -/
def Sys2Proof.SameOutside (s t : State) (base n : Nat) : Prop := ∀ a, a < base ∨ base + n ≤ a → t.buf.read a = s.buf.read a

/-- The ports and the model's own fields are as before. -/
def Sys2Proof.SamePorts (s t : State) : Prop := t.inputs = s.inputs ∧ t.issue = s.issue ∧ t.freeIndex = s.freeIndex

/-- The next thing a step of `s` does is to leave its state by reset or by an accepted INIT. -/
def Sys2Proof.StartsOver (s : State) : Prop :=
  ∃ p rest, s.inputs = p :: rest ∧ (p.rst = true ∨ (p.cmdValid = true ∧ decodeCmd p.cmd = .init))

/-- The bytes a list of reads delivers, in order, as commands. An empty read delivers none and is no command, wherever it stands in the
list; the END that the read of 0 bytes at the end of the stream is (R277, D4, D6) stands apart. DESIGN CHOICE (log 23). -/
def Sys2Proof.readsOf (reads : List (List Byte)) : List Instr := expandTrace (reads.map .read)

/-! ### Encoding -/

/-- Decoding an encoded well-formed instruction gives it back, for every instruction and every operand (R90 to R95).
The operand byte beside an internal label stands where the model puts it (log 8). -/
def Obligations.DecodeEncodeRoundTrip : Prop := ∀ i : Instr, i.wellFormed = true → decode (encode i) = .ok i

/-- Whatever decodes is well formed, and is read from its own words only: an internal operation from exactly the word that encodes
it, a command from a word that differs from it at most in the ignored data field (R91, R92, R94). That an operand byte is
rejected beside an operation without one is the model's choice (log 12). -/
def Obligations.DecodedWordIsItsEncoding : Prop :=
  ∀ (w : TableWord) (i : Instr), decode w = .ok i →
    i.wellFormed = true ∧
    (w.format = .uop → encode i = w) ∧
    (w.format = .cmd → (encode i).format = .cmd ∧ (encode i).bits.extractLsb' 8 8 = w.bits.extractLsb' 8 8 ∧
      ((∃ v, i = .data v) → encode i = w))

/-- Every one of the 1024 command words decodes, on cmd[9:8] alone, DATA taking cmd[7:0] (R90 to R93); the labels 0x4A to 0x7F name
nothing (R94, R99). That a decoder rejects a word with one, beside every operand byte, is the model's choice (log 12): R94 needs no
decoder and R99 no behaviour; that an internal operation has a word at all, with an operand byte, is log 8's. -/
def Obligations.EveryCommandWordDecodesAndUnusedLabelsDoNot : Prop :=
  (∀ (op : BitVec 2) (data : Byte),
    decode (cmdWord op data) = .ok (decodeCmd (op ++ data)) ∧
    (op = 0b00 → decodeCmd (op ++ data) = .init) ∧
    (op = 0b01 → decodeCmd (op ++ data) = .data data) ∧
    (op = 0b10 → decodeCmd (op ++ data) = .endMsg) ∧
    (op = 0b11 → decodeCmd (op ++ data) = .fail)) ∧
  ∀ (label : BitVec 7) (operand : Byte), 0x4A ≤ label.toNat → decode (uopWord label operand) = .error .unusedLabel

/-- Words written out from R91, R92 and R94 decode to what they stand for. In the word 0x4045 for PARSE 64 the label 0x45 is R94's; the
operand byte 0x40 in bits 15:8 stands where the model puts it, the spec giving it no bits (log 8), and so does the zero operand of
0x48 for COMPRESS 0. -/
def Obligations.SampleWordsDecode : Prop :=
  decode ⟨.cmd, 0x000⟩ = .ok .init ∧ decode ⟨.cmd, 0x161⟩ = .ok (.data 0x61) ∧ decode ⟨.cmd, 0x180⟩ = .ok (.data 0x80) ∧
  decode ⟨.cmd, 0x200⟩ = .ok .endMsg ∧ decode ⟨.cmd, 0x2A5⟩ = .ok .endMsg ∧ decode ⟨.cmd, 0x3FF⟩ = .ok .fail ∧
  decode ⟨.uop, 0x00⟩ = .ok .f00 ∧ decode ⟨.uop, 0x1B⟩ = .ok .g27 ∧ decode ⟨.uop, 0x2A⟩ = .ok .h42 ∧
  decode ⟨.uop, 0x3F⟩ = .ok .i63 ∧ decode ⟨.uop, 0x41⟩ = .ok .pad80 ∧ decode ⟨.uop, 0x4045⟩ = .ok (.parse 64) ∧
  decode ⟨.uop, 0x48⟩ = .ok (.compress 0) ∧ decode ⟨.uop, 0x49⟩ = .ok .serialize

/-! ### Arithmetic and tables -/

/-- Rotation (R10, R150): circular for every amount, by the amount modulo 32; for 1 to 31 it is (x * 2^s) mod 2^32 + x div 2^(32-s);
for a fixed amount it is a bijection on words. -/
def Obligations.RotationIsCircular : Prop :=
  (∀ (x : Word) (s : Nat), rotl32 x s = rotl32 x (s % 32)) ∧
  (∀ x : Word, rotl32 x 0 = x) ∧
  (∀ (x : Word) (s : Nat), 1 ≤ s → s ≤ 31 →
    (rotl32 x s).toNat = (x.toNat * 2 ^ s) % 2 ^ 32 + x.toNat / 2 ^ (32 - s)) ∧
  (∀ s : Nat, Function.Bijective fun x : Word => rotl32 x s)

/-- The four functions, bit by bit, their corner cases, and the group each belongs to (R144 to R147). -/
def Obligations.RoundFunctionsBitByBit : Prop :=
  (∀ (b c d : Word) (n : Nat), n < 32 →
    (fnF b c d).getLsbD n = (if b.getLsbD n then c.getLsbD n else d.getLsbD n) ∧
    (fnG b c d).getLsbD n = (if d.getLsbD n then b.getLsbD n else c.getLsbD n) ∧
    (fnH b c d).getLsbD n = ((b.getLsbD n ^^ c.getLsbD n) ^^ d.getLsbD n) ∧
    (fnI b c d).getLsbD n = (c.getLsbD n ^^ (b.getLsbD n || !d.getLsbD n))) ∧
  (∀ x y z : Word, fnF 0 x y = y ∧ fnF 0xFFFFFFFF x y = x ∧ fnF x y y = y ∧ fnG x y 0 = y ∧ fnG x y 0xFFFFFFFF = x ∧
    fnG x y z = fnF z x y ∧ fnH x x y = y ∧ fnH x y y = x ∧ fnH x y x = y ∧ fnI x y 0 = ~~~y) ∧
  fnF 0 0 0 = 0 ∧ fnG 0 0 0 = 0 ∧ fnH 0 0 0 = 0 ∧ fnI 0 0 0 = 0xFFFFFFFF ∧
  mixOf 0 = fnF ∧ mixOf 1 = fnG ∧ mixOf 2 = fnH ∧ mixOf 3 = fnI

/-- The word index of all 64 rounds, as R96's table lists it; in each group the sixteen indices are all different (R96, R148). -/
def Obligations.WordIndexTable : Prop :=
  roundIndices.map wordIndex =
    [0, 1, 2, 3, 4, 5, 6, 7, 8, 9, 10, 11, 12, 13, 14, 15] ++ [1, 6, 11, 0, 5, 10, 15, 4, 9, 14, 3, 8, 13, 2, 7, 12] ++
    [5, 8, 11, 14, 1, 4, 7, 10, 13, 0, 3, 6, 9, 12, 15, 2] ++ [0, 7, 14, 5, 12, 3, 10, 1, 8, 15, 6, 13, 4, 11, 2, 9] ∧
  ∀ fn : BitVec 2, Function.Injective fun j : BitVec 4 => wordIndex (fn ++ j)

/-- The checks on K and S that spec/95_test_vectors.md 3.2 gives: the sum of S, its least and greatest, the exclusive-or and the sum
of K. The tables' values are supplied by the spec from general knowledge (log 13). -/
def Obligations.TablesPassTheSpecsChecks : Prop :=
  (roundIndices.map (amountOf Config.tables)).sum = 848 ∧
  (∀ i : BitVec 6, 4 ≤ amountOf Config.tables i ∧ amountOf Config.tables i ≤ 23) ∧
  (roundIndices.map (constantOf Config.tables)).foldl (· ^^^ ·) 0 = 0x10e6cc5a ∧
  (roundIndices.map (constantOf Config.tables)).foldl (· + ·) 0 = 0x27f3a0bc

/-! ### Rounds -/

/-- F00, F01, F02, F03, F04, F05, F06, F07: each answers the next state its own rule writes out (R200 to R207). -/
def Obligations.RoundsF00ToF07 : Prop :=
  ∀ r ∈ roundsFLow, r.Holds fun b c d => (b &&& c) ||| (~~~b &&& d)

/-- F08, F09, F10, F11, F12, F13, F14, F15: each answers the next state its own rule writes out (R208 to R215). -/
def Obligations.RoundsF08ToF15 : Prop :=
  ∀ r ∈ roundsFHigh, r.Holds fun b c d => (b &&& c) ||| (~~~b &&& d)

/-- G16, G17, G18, G19, G20, G21, G22, G23: each answers the next state its own rule writes out (R216 to R223). -/
def Obligations.RoundsG16ToG23 : Prop :=
  ∀ r ∈ roundsGLow, r.Holds fun b c d => (d &&& b) ||| (~~~d &&& c)

/-- G24, G25, G26, G27, G28, G29, G30, G31: each answers the next state its own rule writes out (R224 to R231). -/
def Obligations.RoundsG24ToG31 : Prop :=
  ∀ r ∈ roundsGHigh, r.Holds fun b c d => (d &&& b) ||| (~~~d &&& c)

/-- H32, H33, H34, H35, H36, H37, H38, H39: each answers the next state its own rule writes out (R232 to R239). -/
def Obligations.RoundsH32ToH39 : Prop :=
  ∀ r ∈ roundsHLow, r.Holds fun b c d => b ^^^ c ^^^ d

/-- H40, H41, H42, H43, H44, H45, H46, H47: each answers the next state its own rule writes out (R240 to R247). -/
def Obligations.RoundsH40ToH47 : Prop :=
  ∀ r ∈ roundsHHigh, r.Holds fun b c d => b ^^^ c ^^^ d

/-- I48, I49, I50, I51, I52, I53, I54, I55: each answers the next state its own rule writes out (R248 to R255). -/
def Obligations.RoundsI48ToI55 : Prop :=
  ∀ r ∈ roundsILow, r.Holds fun b c d => c ^^^ (b ||| ~~~d)

/-- I56, I57, I58, I59, I60, I61, I62, I63: each answers the next state its own rule writes out (R256 to R263). -/
def Obligations.RoundsI56ToI63 : Prop :=
  ∀ r ∈ roundsIHigh, r.Holds fun b c d => c ^^^ (b ||| ~~~d)

/-- ROUND i for all 64 indices is one template, with its function, word index, constant and amount computed from i (R143, R148), for
the operation the label i names. -/
def Obligations.EveryRoundIsTheTemplate : Prop :=
  ∀ (i : BitVec 6) (x : Instr) (s : State), isRound i x → s.rnd = i →
    HasLabel x ((0 : BitVec 1) ++ i) ∧ exec x s = .next
      { s with
        a := s.d
        b := add32 s.b (rotl32 (mixOf (groupOf i) s.b s.c s.d + s.a + constantOf Config.tables i + s.w.get (wordIndex i))
          (amountOf Config.tables i))
        c := s.b
        d := s.c
        rnd := BitVec.ofNat 6 ((i.toNat + 1) % 64) }

/-- Where an operation is not in the place its rule requires, the model's meaning stops, by the model's own choice: a ROUND with RND
not its index (R143 requires RND = i; log 9), a PARSE or COMPRESS of a base other than 0 and 64 (R67; log 11). -/
def Obligations.OperationsOutOfPlaceStop : Prop :=
  (∀ (i : BitVec 6) (x : Instr) (s : State), isRound i x → s.rnd ≠ i → exec x s = .fault .roundOutOfOrder) ∧
  ∀ (base : Byte) (s : State), base ≠ 0 → base ≠ 64 →
    exec (.parse base) s = .refused .badBlockBase ∧ exec (.compress base) s = .refused .badBlockBase

/-! ### The Padder -/

/-- APPEND v, with CNT from 0 to 127: BUF[CNT] is v, CNT one more, every other byte and register unchanged, LEN among them (R120).
PAD80 is APPEND of 0x80 (R121). -/
def Obligations.AppendStoresOneByte : Prop :=
  ∀ (v : Byte) (s : State), s.buf.wf = true → s.cnt.toNat ≤ 127 →
    HasLabel (.append v) 0x40 ∧ HasLabel .pad80 0x41 ∧
    (∃ t, exec (.append v) s = .next t ∧ SameButBuf s t ∧ t.cnt = s.cnt + 1 ∧ t.cnt.toNat ≤ 128 ∧
      t.buf.read s.cnt.toNat = v ∧ SameOutside s t s.cnt.toNat 1) ∧
    (∃ t, exec .pad80 s = .next t ∧ SameButBuf s t ∧ t.cnt = s.cnt + 1 ∧ t.cnt.toNat ≤ 128 ∧
      t.buf.read s.cnt.toNat = 0x80 ∧ SameOutside s t s.cnt.toNat 1)

/-- PADZ: zero bytes are appended until CNT is 56 modulo 64, none when it is already, from any CNT up to 120. On the CNT that PAD80
leaves after a remainder of r bytes they are (55 - r) mod 64, and CNT ends at 56 when r ≤ 55 and at 120 otherwise. All else is
unchanged (R122). -/
def Obligations.ZeroFillReaches56Modulo64 : Prop :=
  HasLabel .padz 0x42 ∧ ∀ s : State, s.buf.wf = true → s.cnt.toNat ≤ 120 →
    ∃ t, exec .padz s = .next t ∧ SameButBuf s t ∧ t.cnt.toNat % 64 = 56 ∧
      s.cnt.toNat ≤ t.cnt.toNat ∧ t.cnt.toNat < s.cnt.toNat + 64 ∧
      (∀ a, s.cnt.toNat ≤ a → a < t.cnt.toNat → t.buf.read a = 0x00) ∧
      SameOutside s t s.cnt.toNat (t.cnt.toNat - s.cnt.toNat) ∧
      (∀ r, r ≤ 63 → s.cnt.toNat = r + 1 →
        t.cnt.toNat = s.cnt.toNat + (55 + 64 - r) % 64 ∧ t.cnt.toNat = (if r ≤ 55 then 56 else 120))

/-- PADLEN: eight bytes, BITLEN = (LEN * 8) mod 2^64, the lowest first, the same as MemWrite(CNT, 8, BITLEN); all eight of them, no
truncation; all else unchanged (R123, R126, R62). -/
def Obligations.LengthFieldIsAppended : Prop :=
  HasLabel .padlen 0x43 ∧ ∀ s : State, s.buf.wf = true → s.cnt.toNat ≤ 120 →
    ∃ t, exec .padlen s = .next t ∧ SameButBuf s t ∧ t.cnt.toNat = s.cnt.toNat + 8 ∧
      memRead t.buf s.cnt.toNat 8 = (s.len.toNat * 8) % 2 ^ 64 ∧
      (∀ k, k < 8 → t.buf.read (s.cnt.toNat + k) = BitVec.ofNat 8 ((s.len.toNat * 8) % 2 ^ 64 / 2 ^ (8 * k))) ∧
      t.buf = memWrite s.buf s.cnt.toNat (lengthField (bitLen s.len)) ∧
      SameOutside s t s.cnt.toNat 8

/-- PAD on a remainder of 0 to 63 bytes is PAD80, PADZ, PADLEN carried out one by one, and builds pad(rem, BITLEN) in place: BUF[0..CNT-1] is the function's value, the bytes below the
old CNT and from the new CNT on are as before, nothing else changes (R124, R128). -/
def Obligations.PadBuildsThePaddedTail : Prop :=
  HasLabel .pad 0x44 ∧ ∀ s : State, s.buf.wf = true → s.cnt.toNat ≤ 63 →
    ∃ t, exec .pad s = .next t ∧ SameButBuf s t ∧
      runInstrs [.pad80, .padz, .padlen] s = .next t ∧
      t.buf.slice 0 t.cnt.toNat = padFn (s.buf.slice 0 s.cnt.toNat) (bitLen s.len) ∧
      t.cnt.toNat = (if s.cnt.toNat ≤ 55 then 64 else 128) ∧
      SameOutside s t s.cnt.toNat (t.cnt.toNat - s.cnt.toNat)

/-- The padded output: 64 bytes when the remainder has at most 55 and 128 otherwise; the remainder first, unchanged; then 0x80; then
zeros; its last eight bytes, read little-endian, are the bit length (R124, R125, R127). -/
def Obligations.PaddedOutputShape : Prop :=
  ∀ (rem : List Byte) (bits : BitVec 64), rem.length ≤ 63 →
    (padFn rem bits).length = (if rem.length ≤ 55 then 64 else 128) ∧
    (padFn rem bits).take rem.length = rem ∧
    (padFn rem bits)[rem.length]? = some 0x80 ∧
    (∀ n, rem.length < n → n < (padFn rem bits).length - 8 → (padFn rem bits)[n]? = some 0x00) ∧
    littleEndian ((padFn rem bits).drop ((padFn rem bits).length - 8)) = bits.toNat

/-- Where an APPEND would need a byte past BUF[127], which does not exist (R120), the operation stops. That it stops is the model's
choice (log 10). -/
def Obligations.PadderStopsPastTheBuffer : Prop :=
  ∀ s : State,
    (128 ≤ s.cnt.toNat → (∀ v, exec (.append v) s = .fault .bufferOverrun) ∧ exec .pad80 s = .fault .bufferOverrun) ∧
    (s.cnt.toNat % 64 = 56 → exec .padz s = .next s) ∧
    (120 < s.cnt.toNat → s.cnt.toNat % 64 ≠ 56 → exec .padz s = .fault .bufferOverrun) ∧
    (120 < s.cnt.toNat → exec .padlen s = .fault .bufferOverrun) ∧
    (120 ≤ s.cnt.toNat → exec .pad s = .fault .bufferOverrun)

/-! ### The Compressor -/

/-- PARSE at 0 or 64: W[j] is four bytes of BUF, little-endian, for each j; all else unchanged, BUF too (R61, R141). -/
def Obligations.ParseReadsLittleEndianWords : Prop :=
  ∀ (base : Byte) (s : State), base = 0 ∨ base = 64 →
    HasLabel (.parse base) 0x45 ∧ ∃ t, exec (.parse base) s = .next t ∧ t = { s with w := t.w } ∧
      ∀ j : Fin 16, (t.w.get j).toNat =
        (s.buf.read (base.toNat + 4 * j.val)).toNat + (s.buf.read (base.toNat + 4 * j.val + 1)).toNat * 2 ^ 8 +
        (s.buf.read (base.toNat + 4 * j.val + 2)).toNat * 2 ^ 16 + (s.buf.read (base.toNat + 4 * j.val + 3)).toNat * 2 ^ 24

/-- LOADW: (a, b, c, d) <- (A, B, C, D); RND <- 0; all else unchanged (R142). FEEDFWD: a into A, b into B, c into C, d into D, each sum
modulo 2^32 on its own; all else unchanged (R153). -/
def Obligations.LoadAndFeedForwardRespectively : Prop :=
  HasLabel .loadw 0x46 ∧ HasLabel .feedfwd 0x47 ∧ ∀ s : State, exec .loadw s = .next { s with a := s.A, b := s.B, c := s.C, d := s.D, rnd := 0 } ∧
    ∃ t, exec .feedfwd s = .next t ∧ t = { s with A := t.A, B := t.B, C := t.C, D := t.D } ∧
      t.A.toNat = (s.A.toNat + s.a.toNat) % 2 ^ 32 ∧ t.B.toNat = (s.B.toNat + s.b.toNat) % 2 ^ 32 ∧
      t.C.toNat = (s.C.toNat + s.c.toNat) % 2 ^ 32 ∧ t.D.toNat = (s.D.toNat + s.d.toNat) % 2 ^ 32

/-- COMPRESS is its 67 operations carried out one by one: PARSE, LOADW, the 64 rounds in order, FEEDFWD (R140, R156). For a
base other than 0 and 64, which the spec never gives, both sides are refused by the model's choice (log 11). -/
def Obligations.CompressIsItsSixtySevenOperations : Prop :=
  ∀ (base : Byte) (s : State),
    HasLabel (.compress base) 0x48 ∧ (compressProgram base).length = 67 ∧ runInstrs (compressProgram base) s = exec (.compress base) s

/-- COMPRESS computes compress(block, (A, B, C, D)) of the 64 bytes at its base, for every block, every State and every table K and
S, and leaves BUF, CNT, LEN, PHASE, DIGEST, PERR, LOVF and the ports alone (R140, R154, R156). RND ends at 0, having
counted 64 rounds (R25, R143). -/
def Obligations.CompressComputesItsFunction : Prop :=
  (∀ (T : Tables) (n : Nat) (s : State), (compressBlock T n s).chain = compressFn T (s.buf.slice n 64) s.chain) ∧
  ∀ (base : Byte) (s : State), base = 0 ∨ base = 64 →
    ∃ t, exec (.compress base) s = .next t ∧ t.chain = compressFn Config.tables (s.buf.slice base.toNat 64) s.chain ∧
      t = { s with A := t.A, B := t.B, C := t.C, D := t.D, a := t.a, b := t.b, c := t.c, d := t.d, rnd := t.rnd, w := t.w } ∧
      t.rnd = 0

/-! ### The Serializer -/

/-- SERIALIZE: DIGEST[4m + k] is byte k of the m-th of A, B, C, D; all else unchanged (R290, R63). -/
def Obligations.SerializeWritesLowByteFirst : Prop :=
  HasLabel .serialize 0x49 ∧ ∀ s : State, ∃ t, exec .serialize s = .next t ∧ t = { s with digest := t.digest } ∧
    ∀ (m k : Fin 4), t.digest.toList[4 * m.val + k.val]? =
      some (((#v[s.A, s.B, s.C, s.D] : Vector Word 4).get m).extractLsb' (8 * k.val) 8)

/-- Serializing is a bijection, and reading a digest's bytes as four little-endian words gives A, B, C, D back (R290, R293). A known
answer reads backwards: a digest string read in pairs of characters is the sixteen bytes it renders, and from them the State (R293). That
a string which HEX never gives, capital letters among them, reads as nothing is the model's choice (log 21). -/
def Obligations.SerializeIsABijection : Prop :=
  (∀ q : Quad, quadOfDigest (serializeFn q) = q) ∧ (∀ v : Vector Byte 16, serializeFn (quadOfDigest v) = v) ∧
  (∀ v : Vector Byte 16,
    (quadOfDigest v).A.toNat = v[0].toNat + v[1].toNat * 2 ^ 8 + v[2].toNat * 2 ^ 16 + v[3].toNat * 2 ^ 24 ∧
    (quadOfDigest v).B.toNat = v[4].toNat + v[5].toNat * 2 ^ 8 + v[6].toNat * 2 ^ 16 + v[7].toNat * 2 ^ 24 ∧
    (quadOfDigest v).C.toNat = v[8].toNat + v[9].toNat * 2 ^ 8 + v[10].toNat * 2 ^ 16 + v[11].toNat * 2 ^ 24 ∧
    (quadOfDigest v).D.toNat = v[12].toNat + v[13].toNat * 2 ^ 8 + v[14].toNat * 2 ^ 16 + v[15].toNat * 2 ^ 24) ∧
  (∀ (cs : List Char) (v : Vector Byte 16), digestOfHex cs = some v ↔ cs = hexOf v) ∧
  ∀ (cs : List Char) (q : Quad), quadOfHex cs = some q ↔ cs = hexOf (serializeFn q)

/-- The digest port in Done: byte n in bits 8n+7:8n; and, DIGEST being the serialization of A, B, C, D, it is D, C, B, A from the
top (R291). -/
def Obligations.DigestPortLayout : Prop :=
  ∀ s : State, s.phase = .done →
    (∀ (n : Nat) (h : n < 16), s.digestPort.extractLsb' (8 * n) 8 = s.digest[n]) ∧
    (s.digest = digestBytes s.A s.B s.C s.D → s.digestPort = s.D ++ s.C ++ s.B ++ s.A)

/-- HEX: 32 characters, two a byte, the upper four bits first, each a character of 0123456789abcdef by its value (R292). -/
def Obligations.HexRendersEachByteHighNibbleFirst : Prop :=
  ∀ v : Vector Byte 16, (hexOf v).length = 32 ∧
    ∀ (n : Nat) (h : n < 16),
      (hexOf v)[2 * n]? = "0123456789abcdef".toList[(v[n]).toNat / 16]? ∧
      (hexOf v)[2 * n + 1]? = "0123456789abcdef".toList[(v[n]).toNat % 16]?

/-! ### The commands -/

/-- INIT, in every phase: the initial constants, LEN, CNT, PERR, LOVF cleared, PHASE Reading; nothing else is written; twice is the
same as once (R271, R21). The spec leaves the bytes of DIGEST without a value after INIT (R31, R38, D15): that INIT keeps the stored
ones is the model's choice (log 4), and no port shows them. -/
def Obligations.InitBeginsAMessage : Prop :=
  HasWord .init 0x000 ∧ ∀ s : State, ∃ t, exec .init s = .next t ∧
    t = { s with
      A := 0x67452301, B := 0xefcdab89, C := 0x98badcfe, D := 0x10325476
      len := 0, cnt := 0, perr := false, lovf := false, phase := .reading } ∧
    t.status = 0x00 ∧ t.digestValid = false ∧ exec .init t = .next t

/-- DATA v in Reading with 0 to 63 bytes buffered: v stored at CNT, LEN one more modulo 2^64, LOVF set when the new LEN is 2^61 or
more; the 64th byte has its block compressed at once and CNT cleared, an earlier one leaves the State words and the scratch
registers alone; PHASE stays Reading and PERR is not touched (R272). That the stored bytes of DIGEST, which have no value in Reading
(R31, D15), stay is the model's choice (log 4); that a, b, c, d, RND and W stay is the model's too (log 16). -/
def Obligations.DataTakesOneByte : Prop :=
  ∀ (v : Byte) (s : State), s.buf.wf = true → s.phase = .reading → s.cnt.toNat ≤ 63 →
    HasWord (.data v) (0x100 + v.setWidth 10) ∧ ∃ t, exec (.data v) s = .next t ∧ t.phase = .reading ∧ t.perr = s.perr ∧ t.digest = s.digest ∧ SamePorts s t ∧
      t.buf.read s.cnt.toNat = v ∧ SameOutside s t s.cnt.toNat 1 ∧
      t.len.toNat = (s.len.toNat + 1) % 2 ^ 64 ∧ (t.lovf = true ↔ s.lovf = true ∨ 2 ^ 61 ≤ t.len.toNat) ∧
      (s.cnt.toNat < 63 → t = { s with buf := t.buf, cnt := s.cnt + 1, len := t.len, lovf := t.lovf }) ∧
      (s.cnt.toNat = 63 → t.cnt = 0 ∧ t.chain = compressFn Config.tables (s.buf.slice 0 63 ++ [v]) s.chain)

/-- END in Reading with 0 to 63 bytes buffered: BUF holds the padded tail, its one or two blocks are compressed in order, DIGEST is the
serialization of the final State, PHASE is Done; LEN, PERR and LOVF are not changed (R273). -/
def Obligations.EndFinishesTheMessage : Prop :=
  HasWord .endMsg 0x200 ∧ ∀ s : State, s.buf.wf = true → s.phase = .reading → s.cnt.toNat ≤ 63 →
    ∃ t, exec .endMsg s = .next t ∧ t.phase = .done ∧
      t.len = s.len ∧ t.perr = s.perr ∧ t.lovf = s.lovf ∧ SamePorts s t ∧
      t.cnt.toNat = (if s.cnt.toNat ≤ 55 then 64 else 128) ∧
      t.buf.slice 0 t.cnt.toNat = padFn (s.buf.slice 0 s.cnt.toNat) (bitLen s.len) ∧
      SameOutside s t s.cnt.toNat (t.cnt.toNat - s.cnt.toNat) ∧
      (s.cnt.toNat ≤ 55 → t.chain = compressFn Config.tables (padFn (s.buf.slice 0 s.cnt.toNat) (bitLen s.len)) s.chain) ∧
      (56 ≤ s.cnt.toNat → t.chain = compressFn Config.tables ((padFn (s.buf.slice 0 s.cnt.toNat) (bitLen s.len)).drop 64)
        (compressFn Config.tables ((padFn (s.buf.slice 0 s.cnt.toNat) (bitLen s.len)).take 64) s.chain)) ∧
      t.digest = serializeFn t.chain

/-- FAIL in Reading: PHASE is Failed and nothing else changes; no digest is valid (R274, R301). The spec leaves the bytes of DIGEST
without a value in Failed (R274, R302, D15): that FAIL keeps the stored ones is the model's choice (log 4), and so is it of a, b, c, d,
RND and W (log 16). -/
def Obligations.FailAbortsTheComputation : Prop :=
  HasWord .fail 0x300 ∧ ∀ s : State, s.phase = .reading → ∃ t, exec .fail s = .next t ∧ t = { s with phase := .failed } ∧
    t.status.extractLsb' 0 3 = 5 ∧ t.digestValid = false ∧ t.failed = true

/-- DATA, END and FAIL in Done or Failed: PERR is set and nothing else changes; in Done the digest stays valid and readable (R275,
R304). -/
def Obligations.LateCommandsOnlySetPerr : Prop :=
  ∀ (v : Byte) (s : State), s.phase = .done ∨ s.phase = .failed →
    ∀ i ∈ [Instr.data v, .endMsg, .fail], ∃ t, exec i s = .next t ∧ t = { s with perr := true } ∧
      t.digestValid = s.digestValid ∧ t.digestPort = s.digestPort

/-- Two kinds of state no run gets to (`StepKeepsTheInvariant`). In the three passing phases, which no command can meet, DATA, END and
FAIL are protocol errors too (R272 to R274: "otherwise rule R275 applies"; log 15). In Reading with no room left in BUF, DATA and END
stop (the model's choice, log 10). -/
def Obligations.CommandsInUnreachableStates : Prop :=
  ∀ (v : Byte) (s : State),
    (s.phase.stable = false → ∀ i ∈ [Instr.data v, .endMsg, .fail], exec i s = .next { s with perr := true }) ∧
    (s.phase = .reading → 128 ≤ s.cnt.toNat → exec (.data v) s = .fault .bufferOverrun) ∧
    (s.phase = .reading → 120 ≤ s.cnt.toNat → exec .endMsg s = .fault .bufferOverrun)

/-! ### Status, reset, the step -/

/-- STATUS: PHASE in bits 2:0 under the codes of R24, PERR in bit 3, LOVF in bit 4, zeros above; `digest_valid` and `failed` are
functions of it. Between commands a host can see 0x00, 0x04, 0x05, each with 0x10 added or not, and the last two with 0x08 added or
not: PERR never with Reading (R24, R33). -/
def Obligations.StatusWordLayoutAndVisibleValues : Prop :=
  (∀ s : State, s.status.extractLsb' 0 3 = s.phase.code ∧ s.status.getLsbD 3 = s.perr ∧ s.status.getLsbD 4 = s.lovf ∧
    s.status.extractLsb' 5 3 = 0 ∧ (s.digestValid = true ↔ s.phase = .done) ∧ (s.failed = true ↔ s.phase = .failed)) ∧
  [Phase.reading, .draining, .padding, .finalizing, .done, .failed].map Phase.code = [0, 1, 2, 3, 4, 5] ∧
  ∀ s : State, s.Inv →
    s.status ∈ ([0x00, 0x04, 0x05, 0x0C, 0x0D, 0x10, 0x14, 0x15, 0x1C, 0x1D] : List Byte)

/-- Reset. Right after power-on, and after `rst` in any state, whatever was going on, what the spec gives a value has it: the initial
constants, LEN, CNT, PERR, LOVF zero, PHASE Reading, `cmd_ready` 1. A step with `rst` asserted always answers that next state, which
agrees with what INIT leaves on everything the spec gives a value (R38, R330, R307). That `cmd_ready` reads 1 even where the next
sample asserts `rst` again is the model's choice (log 22), and that the host's further samples stay is the model's too (log 6). -/
def Obligations.ResetStateAndItsEffect : Prop :=
  (∀ t : State, (t = State.reset ∨ ∃ s p rest, s.inputs = p :: rest ∧ p.rst = true ∧ step s = .next t) →
    t.A = 0x67452301 ∧ t.B = 0xefcdab89 ∧ t.C = 0x98badcfe ∧ t.D = 0x10325476 ∧ t.len = 0 ∧ t.cnt = 0 ∧
      t.perr = false ∧ t.lovf = false ∧ t.phase = .reading ∧ t.status = 0x00 ∧ t.cmdReady = true) ∧
  ∀ (s : State) (p : PortSample) (rest : List PortSample), s.inputs = p :: rest → p.rst = true →
    ∃ t u, step s = .next t ∧ exec .init s = .next u ∧ Agree t u ∧ t.inputs = rest

/-- A step carries out the command it accepts: with `cmd_ready` 1, `cmd_valid` 1 and no `rst`, it is `exec` of what the offered word
decodes to, the sample being consumed (R34, R72) and the model's own counter for DIGEST's free value moved on (log 1). -/
def Obligations.StepRunsTheAcceptedCommand : Prop :=
  ∀ (s : State) (p : PortSample) (rest : List PortSample), s.cmdReady = true → s.inputs = p :: rest → p.rst = false →
    p.cmdValid = true → step s = exec (decodeCmd p.cmd) { s with inputs := rest, freeIndex := s.freeIndex + 1 }

/-- A step carries out the internal operation the model issues, if no `rst` is asserted; a word that is none is refused, by name; the
host's command is held meanwhile (R332, R94; the model's own, log 8, log 12). -/
def Obligations.StepRunsTheIssuedOperation : Prop :=
  ∀ (s : State) (u : BitVec 16), s.issue = some u → s.rstAsserted = false →
    s.cmdReady = false ∧
    (∀ i, decode ⟨.uop, u⟩ = .ok i → step s = exec i { s with issue := none }) ∧
    (∀ e, decode ⟨.uop, u⟩ = .error e → step s = .refused .undefinedOperation)

/-- `withFetchWord` places a word of the opcode table so that the very next step runs it (the model's own, log 7, log 8): whatever the
table's word decodes to is what the step carries out, from the same state but for the fields the placing needs; and a ROUND finds RND
at the index it requires. -/
def Obligations.PlacedWordRunsNext : Prop :=
  ∀ (s : State) (nbits w : Nat) (i : Instr), decodeTableWord nbits w = some i →
    ∃ t, step (s.withFetchWord nbits w) = exec i t ∧
      t = { s with rnd := t.rnd, inputs := t.inputs, issue := none, freeIndex := t.freeIndex } ∧
      ∀ k, isRound k i → t.rnd = k

/-- Between commands the engine is idle with all state held: with nothing offered nothing changes, and a sample with `cmd_valid` at 0
is only passed over, the status and the digest a host reads being the same (R34, R70, R311). -/
def Obligations.IdleEngineHoldsItsState : Prop :=
  ∀ s : State, s.issue = none →
    (s.inputs = [] → step s = .next s) ∧
    (∀ p rest, s.inputs = p :: rest → p.rst = false → p.cmdValid = false →
      ∃ t, step s = .next t ∧ t = { s with inputs := rest } ∧ t.status = s.status ∧ t.digestPort = s.digestPort)

/-! ### Invariants -/

/-- What holds between commands holds at reset (R37, R38). -/
def Obligations.ResetKeepsTheInvariant : Prop := State.reset.Inv

/-- What holds between commands is kept by every step (R24, R32, R33, R37). -/
def Obligations.StepKeepsTheInvariant : Prop := ∀ s t : State, s.Inv → step s = .next t → t.Inv

/-- Every accepted command completes: where what holds between commands holds, a step neither faults nor refuses (R279, R305, R339). -/
def Obligations.CommandsAlwaysComplete : Prop := ∀ s : State, s.Inv → s.goesOn

/-- BUF keeps its canonical form in every step from every state, an issued operation's step among them (the model's own form of
R26, log 3). -/
def Obligations.StepKeepsBufCanonical : Prop := ∀ s t : State, s.buf.wf = true → step s = .next t → t.buf.wf = true

/-! ### Rules of the whole machine -/

/-- Within one message PHASE never goes back: only INIT and reset lead to Reading from Done or Failed, Done and Failed are otherwise
kept, and from Reading only DATA's Reading, END's Done and FAIL's Failed are reached (R276). -/
def Obligations.PhaseNeverGoesBack : Prop :=
  ∀ s t : State, s.Inv → step s = .next t →
    (s.phase ≠ .reading → t.phase = s.phase ∨ (t.phase = .reading ∧ StartsOver s)) ∧
    (s.phase = .reading → t.phase = .reading ∨
      ∃ p rest, s.inputs = p :: rest ∧ p.rst = false ∧ p.cmdValid = true ∧
        ((decodeCmd p.cmd = .endMsg ∧ t.phase = .done) ∨ (decodeCmd p.cmd = .fail ∧ t.phase = .failed)))

/-- The two flags are sticky: nothing but INIT and reset clears them. PERR is set by a DATA, END or FAIL accepted in Done or Failed, and
by nothing else; LOVF by a DATA in Reading whose new LEN is 2^61 or more, and by nothing else (R32). -/
def Obligations.FlagsAreStickyAndSetOnlyByTheirCauses : Prop :=
  ∀ s t : State, s.Inv → step s = .next t →
    (s.perr = true → t.perr = true ∨ StartsOver s) ∧ (s.lovf = true → t.lovf = true ∨ StartsOver s) ∧
    (s.perr = false → t.perr = true → (s.phase = .done ∨ s.phase = .failed) ∧
      ∃ p rest, s.inputs = p :: rest ∧ p.rst = false ∧ p.cmdValid = true ∧ decodeCmd p.cmd ≠ .init) ∧
    (s.lovf = false → t.lovf = true → s.phase = .reading ∧ 2 ^ 61 ≤ t.len.toNat ∧
      ∃ p rest v, s.inputs = p :: rest ∧ p.rst = false ∧ p.cmdValid = true ∧ decodeCmd p.cmd = .data v)

/-- A digest once produced stays: while PHASE stays Done, no step changes DIGEST or the digest port (R31, R291). -/
def Obligations.DigestIsImmutableInDone : Prop :=
  ∀ s t : State, s.Inv → s.phase = .done → step s = .next t →
    (t.digest = s.digest ∧ t.digestPort = s.digestPort ∧ t.phase = .done) ∨ StartsOver s

/-- A, B, C, D are written by INIT, reset and the commands that compress, and by nothing else: a step that accepts none of these
leaves them (R20). -/
def Obligations.StateWordsChangeOnlyByInitResetAndCompress : Prop :=
  ∀ s t : State, s.Inv → step s = .next t → t.chain ≠ s.chain →
    StartsOver s ∨ (s.phase = .reading ∧ ∃ p rest, s.inputs = p :: rest ∧ p.rst = false ∧ p.cmdValid = true ∧
      (decodeCmd p.cmd = .endMsg ∨ (s.cnt = 63 ∧ ∃ v, decodeCmd p.cmd = .data v)))

/-- What the spec leaves without a value never matters: two engines that agree on everything it gives a value take any command to
states that agree again (R37c, R38, D31, U3). So nothing shown depends on the reset values of log 2 to log 4. -/
def Obligations.UnspecifiedStateNeverMatters : Prop :=
  ∀ (s t : State) (v : Byte), s.Inv → t.Inv → Agree s t →
    ∀ i ∈ [Instr.init, .data v, .endMsg, .fail],
      ∃ s' t', exec i s = .next s' ∧ exec i t = .next t' ∧ Agree s' t' ∧ s'.observe = t'.observe

/-- Several engines share nothing: a step of one leaves every other as it was, and is its own step (R75, R310). -/
def Obligations.EnginesAreIndependent : Prop :=
  ∀ (sys sys' : System) (k : Nat), sys.stepEngine k = .next sys' →
    sys'.length = sys.length ∧ (∀ j, j ≠ k → sys'[j]? = sys[j]?) ∧
      ∀ s, sys[k]? = some s → ∃ t, step s = .next t ∧ sys'[k]? = some t

/-! ### The whole computation -/

/-- The digest of a message: INIT, one DATA a byte, END, from any state, gives the digest of R278, PHASE Done, no flag, LEN the
message's length (R278, R270). The premise of fewer than 2^61 bytes is the spec's (U1, log 14). -/
def Obligations.MessageGivesItsDigest : Prop :=
  ∀ (m : List Byte) (s : State), s.buf.wf = true → m.length < 2 ^ 61 →
    ∃ t, runInstrs ([.init] ++ m.map .data ++ [.endMsg]) s = .next t ∧ t.phase = .done ∧
      t.digest = digestFn Config.tables m ∧ t.chain = finalQuad Config.tables m ∧
      t.len.toNat = m.length ∧ t.perr = false ∧ t.lovf = false ∧ t.status = 0x04

/-- The same at the ports: whatever the state, whatever the delays between the commands, if the host never asserts `rst` and the
commands it offers are INIT, the message's bytes, END, then when they are taken STATUS is 0x04 and the digest port carries the digest
of R278 (R34, R76, R270, R278). -/
def Obligations.PortsDeliverTheDigest : Prop :=
  ∀ (m : List Byte) (s : State), s.buf.wf = true → m.length < 2 ^ 61 → s.issue = none → (∀ p ∈ s.inputs, p.rst = false) →
    acceptedCommands s.inputs = [.init] ++ m.map .data ++ [.endMsg] →
    ∃ t, steps s.inputs.length s = .next t ∧ t.inputs = [] ∧ t.status = 0x04 ∧ t.cmdReady = true ∧
      t.digestPort = packDigest (digestFn Config.tables m) ∧
      t.observe = ⟨.done, false, false, some (digestFn Config.tables m)⟩

/-- Delays have no effect: taking any samples without `rst`, one a step, is carrying out the commands accepted from them one after
another, up to the ports and the model's own counter (R72, R76). -/
def Obligations.StepsAreTheAcceptedCommandsInOrder : Prop :=
  ∀ s t : State, s.issue = none → (∀ p ∈ s.inputs, p.rst = false) →
    (steps s.inputs.length s = .next t ↔
      ∃ u, runInstrs (acceptedCommands s.inputs) s = .next u ∧
        t = { u with inputs := [], freeIndex := s.freeIndex + (acceptedCommands s.inputs).length })

/-- Chunking: how a message's bytes are grouped into reads does not affect the result; each read of n bytes is n DATA, and a short
read does not end the message (R76, R277). That an empty read in the list is no command, and no end of the message, is the model's
choice (log 23); the end of the stream is the END here. -/
def Obligations.ReadGroupingDoesNotMatter : Prop :=
  ∀ (reads : List (List Byte)) (s : State), s.buf.wf = true → reads.flatten.length < 2 ^ 61 →
    (∀ others : List (List Byte), others.flatten = reads.flatten → readsOf others = readsOf reads) ∧
    ∃ t, runInstrs ([.init] ++ readsOf reads ++ [.endMsg]) s = .next t ∧ t.digest = digestFn Config.tables reads.flatten

/-- A source that fails: after INIT and any bytes, FAIL leaves PHASE Failed, nothing to observe but that, and until the next INIT no
DATA, END or FAIL brings a digest back (R274, R301 to R303, R341). -/
def Obligations.FailedRunYieldsNothing : Prop :=
  ∀ (m : List Byte) (late : List Instr) (s : State), m.length < 2 ^ 61 →
    (∀ i ∈ late, (∃ v, i = .data v) ∨ i = .endMsg ∨ i = .fail) →
    ∃ t, runInstrs ([.init] ++ m.map .data ++ [.fail] ++ late) s = .next t ∧
      t.observe = ⟨.failed, !late.isEmpty, false, none⟩ ∧ t.runOver = true

/-- The pseudo-instructions expand as R101 says, and the canonical words are those of R92: INIT 0x000, DATA v 0x100 + v, END 0x200,
FAIL 0x300 (R92, R101). -/
def Obligations.NotationExpands : Prop :=
  (∀ (vs : List Byte) (n : Nat) (v : Byte),
    (TraceLine.bytes vs).expand = vs.map .data ∧ (TraceLine.read vs).expand = (TraceLine.bytes vs).expand ∧
    (∀ cs : List Char, (∀ c ∈ cs, c.toNat < 128) →
      (TraceLine.text cs).expand = (TraceLine.bytes (cs.map fun c => BitVec.ofNat 8 c.toNat)).expand) ∧
    (TraceLine.rep n v).expand = (TraceLine.bytes (List.replicate n v)).expand ∧
    (TraceLine.message vs).expand = [.init] ++ (TraceLine.bytes vs).expand ++ [.endMsg] ∧
    (commandWord (.data v)).toNat = 0x100 + v.toNat) ∧
  commandWord .init = 0x000 ∧ commandWord .endMsg = 0x200 ∧ commandWord .fail = 0x300
end

