-- ==== Sys2Proof/Laws/Memory.lean ====
section
/-! SUPPORT. BUF: a read after a write, and the canonical form, which every write keeps and which makes equal contents equal data. -/

namespace Sys2Proof.Machine

@[simp] theorem Memory.read_nil (i : Nat) : Memory.read [] i = Memory.blank := rfl

theorem Memory.read_cons (x : Host.Cell) (m : Memory) (i : Nat) :
    Memory.read (x :: m) i = if x.1 = i then x.2 else Memory.read m i := rfl

/-- In a rising list every index is above the first. -/
theorem Memory.rising_head_lt {x : Host.Cell} {m : Memory} (h : Memory.rising (x :: m) = true) :
    ∀ y ∈ m, x.1 < y.1 := by
  induction m generalizing x with
  | nil => simp
  | cons z m ih =>
    simp only [Memory.rising, Bool.and_eq_true, decide_eq_true_eq] at h
    intro y hy
    rcases List.mem_cons.1 hy with rfl | hy
    · exact h.1
    · exact Nat.lt_trans h.1 (ih h.2 y hy)

theorem Memory.rising_tail {x : Host.Cell} {m : Memory} (h : Memory.rising (x :: m) = true) : Memory.rising m = true := by
  cases m with
  | nil => rfl
  | cons z m => simp only [Memory.rising, Bool.and_eq_true] at h; exact h.2

theorem Memory.rising_cons {x : Host.Cell} {m : Memory} (hx : ∀ y ∈ m, x.1 < y.1) (hm : Memory.rising m = true) :
    Memory.rising (x :: m) = true := by
  cases m with
  | nil => rfl
  | cons z m => simp only [Memory.rising, Bool.and_eq_true, decide_eq_true_eq]; exact ⟨hx z (by simp), hm⟩

/-- An index below all listed ones reads as a byte nothing has written. -/
theorem Memory.read_below {m : Memory} {i : Nat} (h : ∀ y ∈ m, i < y.1) : Memory.read m i = Memory.blank := by
  induction m with
  | nil => rfl
  | cons x m ih =>
    have hx := h x (by simp)
    rw [Memory.read_cons, if_neg (by omega)]
    exact ih fun y hy => h y (by simp [hy])

/-- Every index of a written list was there before or is the one written. -/
theorem Memory.mem_write {m : Memory} {i : Nat} {v : Byte} :
    ∀ y ∈ Memory.write m i v, y ∈ m ∨ (y = (i, v) ∧ v ≠ Memory.blank) := by
  induction m with
  | nil =>
    intro y hy
    simp only [Memory.write] at hy
    split at hy <;> simp_all
  | cons x m ih =>
    intro y hy
    simp only [Memory.write] at hy
    split at hy
    · rcases List.mem_cons.1 hy with rfl | hy
      · simp
      · rcases ih y hy with h | h
        · simp [h]
        · exact .inr h
    · split at hy
      · split at hy
        · simp [hy]
        · rcases List.mem_cons.1 hy with rfl | hy <;> simp_all
      · split at hy
        · exact .inl hy
        · rcases List.mem_cons.1 hy with rfl | hy
          · exact .inr ⟨rfl, by assumption⟩
          · exact .inl hy

theorem Memory.rising_write {m : Memory} (i : Nat) (v : Byte) (h : Memory.rising m = true) :
    Memory.rising (Memory.write m i v) = true := by
  induction m with
  | nil => simp only [Memory.write]; split <;> rfl
  | cons x m ih =>
    have hx := Memory.rising_head_lt h
    have hm := Memory.rising_tail h
    simp only [Memory.write]
    split
    · next hlt =>
      refine Memory.rising_cons (fun y hy => ?_) (ih hm)
      rcases Memory.mem_write y hy with h' | ⟨rfl, _⟩
      · exact hx y h'
      · exact hlt
    · split
      · next heq =>
        split
        · exact hm
        · exact Memory.rising_cons (fun y hy => heq ▸ hx y hy) hm
      · split
        · exact h
        · refine Memory.rising_cons (fun y hy => ?_) h
          rcases List.mem_cons.1 hy with rfl | hy
          · show i < y.1; omega
          · have := hx y hy; show i < y.1; omega

/-- A write inside BUF keeps the canonical form. -/
theorem Memory.wf_write {m : Memory} {i : Nat} (v : Byte) (h : Memory.wf m = true) (hi : i < Memory.size) :
    Memory.wf (Memory.write m i v) = true := by
  simp only [Memory.wf, Bool.and_eq_true, List.all_eq_true, decide_eq_true_eq] at h ⊢
  refine ⟨Memory.rising_write i v h.1, fun y hy => ?_⟩
  rcases Memory.mem_write y hy with h' | ⟨rfl, hv⟩
  · exact h.2 y h'
  · exact ⟨hi, hv⟩

/-- A read after a write, in a canonical list. -/
theorem Memory.read_write_rising {m : Memory} (h : Memory.rising m = true) (i : Nat) (v : Byte) (j : Nat) :
    Memory.read (Memory.write m i v) j = if j = i then v else Memory.read m j := by
  induction m with
  | nil =>
    simp only [Memory.write]
    split
    · next hv => simp [hv]
    · simp only [Memory.read_cons, Memory.read_nil]; split <;> split <;> simp_all
  | cons x m ih =>
    have hm := Memory.rising_tail h
    have hx := Memory.rising_head_lt h
    simp only [Memory.write]
    split
    · simp only [Memory.read_cons, ih hm]
      split <;> split <;> simp_all
    · split
      · next _ heq =>
        split
        · next hv =>
          simp only [Memory.read_cons]
          by_cases hj : j = i
          · subst hj; rw [if_pos rfl, hv]; exact Memory.read_below (heq ▸ hx)
          · rw [if_neg hj, if_neg (by omega)]
        · rw [Memory.read_cons, Memory.read_cons]
          by_cases hj : j = i
          · subst hj; simp
          · rw [if_neg (Ne.symm hj), if_neg hj, if_neg (by omega)]
      · next hlt heq =>
        split
        · next hv =>
          by_cases hj : j = i
          · subst hj; rw [if_pos rfl, hv]
            refine Memory.read_below fun y hy => ?_
            rcases List.mem_cons.1 hy with rfl | hy
            · omega
            · have := hx y hy; omega
          · rw [if_neg hj]
        · rw [Memory.read_cons]
          by_cases hj : j = i
          · subst hj; simp
          · rw [if_neg hj, if_neg (by simpa using Ne.symm hj)]

end Sys2Proof.Machine
end

