-- ==== Sys2Proof/Laws/State.lean ====
section
/-! SUPPORT. For each register update, what every field reads after it: one lemma a field, so that no later proof unfolds a record
update. -/

namespace Sys2Proof.Machine

variable (s : State)

@[simp] theorem State.setChain_A (A B C D : Word) : (s.setChain A B C D).A = A := rfl
@[simp] theorem State.setChain_B (A B C D : Word) : (s.setChain A B C D).B = B := rfl
@[simp] theorem State.setChain_C (A B C D : Word) : (s.setChain A B C D).C = C := rfl
@[simp] theorem State.setChain_D (A B C D : Word) : (s.setChain A B C D).D = D := rfl
@[simp] theorem State.setChain_a (A B C D : Word) : (s.setChain A B C D).a = s.a := rfl
@[simp] theorem State.setChain_b (A B C D : Word) : (s.setChain A B C D).b = s.b := rfl
@[simp] theorem State.setChain_c (A B C D : Word) : (s.setChain A B C D).c = s.c := rfl
@[simp] theorem State.setChain_d (A B C D : Word) : (s.setChain A B C D).d = s.d := rfl
@[simp] theorem State.setChain_rnd (A B C D : Word) : (s.setChain A B C D).rnd = s.rnd := rfl
@[simp] theorem State.setChain_phase (A B C D : Word) : (s.setChain A B C D).phase = s.phase := rfl
@[simp] theorem State.setChain_buf (A B C D : Word) : (s.setChain A B C D).buf = s.buf := rfl
@[simp] theorem State.setChain_cnt (A B C D : Word) : (s.setChain A B C D).cnt = s.cnt := rfl
@[simp] theorem State.setChain_w (A B C D : Word) : (s.setChain A B C D).w = s.w := rfl
@[simp] theorem State.setChain_len (A B C D : Word) : (s.setChain A B C D).len = s.len := rfl
@[simp] theorem State.setChain_digest (A B C D : Word) : (s.setChain A B C D).digest = s.digest := rfl
@[simp] theorem State.setChain_perr (A B C D : Word) : (s.setChain A B C D).perr = s.perr := rfl
@[simp] theorem State.setChain_lovf (A B C D : Word) : (s.setChain A B C D).lovf = s.lovf := rfl
@[simp] theorem State.setChain_inputs (A B C D : Word) : (s.setChain A B C D).inputs = s.inputs := rfl
@[simp] theorem State.setChain_issue (A B C D : Word) : (s.setChain A B C D).issue = s.issue := rfl
@[simp] theorem State.setChain_freeIndex (A B C D : Word) : (s.setChain A B C D).freeIndex = s.freeIndex := rfl

@[simp] theorem State.setWork_A (a b c d : Word) (r : BitVec 6) : (s.setWork a b c d r).A = s.A := rfl
@[simp] theorem State.setWork_B (a b c d : Word) (r : BitVec 6) : (s.setWork a b c d r).B = s.B := rfl
@[simp] theorem State.setWork_C (a b c d : Word) (r : BitVec 6) : (s.setWork a b c d r).C = s.C := rfl
@[simp] theorem State.setWork_D (a b c d : Word) (r : BitVec 6) : (s.setWork a b c d r).D = s.D := rfl
@[simp] theorem State.setWork_a (a b c d : Word) (r : BitVec 6) : (s.setWork a b c d r).a = a := rfl
@[simp] theorem State.setWork_b (a b c d : Word) (r : BitVec 6) : (s.setWork a b c d r).b = b := rfl
@[simp] theorem State.setWork_c (a b c d : Word) (r : BitVec 6) : (s.setWork a b c d r).c = c := rfl
@[simp] theorem State.setWork_d (a b c d : Word) (r : BitVec 6) : (s.setWork a b c d r).d = d := rfl
@[simp] theorem State.setWork_rnd (a b c d : Word) (r : BitVec 6) : (s.setWork a b c d r).rnd = r := rfl
@[simp] theorem State.setWork_phase (a b c d : Word) (r : BitVec 6) : (s.setWork a b c d r).phase = s.phase := rfl
@[simp] theorem State.setWork_buf (a b c d : Word) (r : BitVec 6) : (s.setWork a b c d r).buf = s.buf := rfl
@[simp] theorem State.setWork_cnt (a b c d : Word) (r : BitVec 6) : (s.setWork a b c d r).cnt = s.cnt := rfl
@[simp] theorem State.setWork_w (a b c d : Word) (r : BitVec 6) : (s.setWork a b c d r).w = s.w := rfl
@[simp] theorem State.setWork_len (a b c d : Word) (r : BitVec 6) : (s.setWork a b c d r).len = s.len := rfl
@[simp] theorem State.setWork_digest (a b c d : Word) (r : BitVec 6) : (s.setWork a b c d r).digest = s.digest := rfl
@[simp] theorem State.setWork_perr (a b c d : Word) (r : BitVec 6) : (s.setWork a b c d r).perr = s.perr := rfl
@[simp] theorem State.setWork_lovf (a b c d : Word) (r : BitVec 6) : (s.setWork a b c d r).lovf = s.lovf := rfl
@[simp] theorem State.setWork_inputs (a b c d : Word) (r : BitVec 6) : (s.setWork a b c d r).inputs = s.inputs := rfl
@[simp] theorem State.setWork_issue (a b c d : Word) (r : BitVec 6) : (s.setWork a b c d r).issue = s.issue := rfl
@[simp] theorem State.setWork_freeIndex (a b c d : Word) (r : BitVec 6) : (s.setWork a b c d r).freeIndex = s.freeIndex := rfl

@[simp] theorem State.setPhase_A (p : Phase) : (s.setPhase p).A = s.A := rfl
@[simp] theorem State.setPhase_B (p : Phase) : (s.setPhase p).B = s.B := rfl
@[simp] theorem State.setPhase_C (p : Phase) : (s.setPhase p).C = s.C := rfl
@[simp] theorem State.setPhase_D (p : Phase) : (s.setPhase p).D = s.D := rfl
@[simp] theorem State.setPhase_a (p : Phase) : (s.setPhase p).a = s.a := rfl
@[simp] theorem State.setPhase_b (p : Phase) : (s.setPhase p).b = s.b := rfl
@[simp] theorem State.setPhase_c (p : Phase) : (s.setPhase p).c = s.c := rfl
@[simp] theorem State.setPhase_d (p : Phase) : (s.setPhase p).d = s.d := rfl
@[simp] theorem State.setPhase_rnd (p : Phase) : (s.setPhase p).rnd = s.rnd := rfl
@[simp] theorem State.setPhase_phase (p : Phase) : (s.setPhase p).phase = p := rfl
@[simp] theorem State.setPhase_buf (p : Phase) : (s.setPhase p).buf = s.buf := rfl
@[simp] theorem State.setPhase_cnt (p : Phase) : (s.setPhase p).cnt = s.cnt := rfl
@[simp] theorem State.setPhase_w (p : Phase) : (s.setPhase p).w = s.w := rfl
@[simp] theorem State.setPhase_len (p : Phase) : (s.setPhase p).len = s.len := rfl
@[simp] theorem State.setPhase_digest (p : Phase) : (s.setPhase p).digest = s.digest := rfl
@[simp] theorem State.setPhase_perr (p : Phase) : (s.setPhase p).perr = s.perr := rfl
@[simp] theorem State.setPhase_lovf (p : Phase) : (s.setPhase p).lovf = s.lovf := rfl
@[simp] theorem State.setPhase_inputs (p : Phase) : (s.setPhase p).inputs = s.inputs := rfl
@[simp] theorem State.setPhase_issue (p : Phase) : (s.setPhase p).issue = s.issue := rfl
@[simp] theorem State.setPhase_freeIndex (p : Phase) : (s.setPhase p).freeIndex = s.freeIndex := rfl

@[simp] theorem State.setBuf_A (m : Memory) (n : BitVec 8) : (s.setBuf m n).A = s.A := rfl
@[simp] theorem State.setBuf_B (m : Memory) (n : BitVec 8) : (s.setBuf m n).B = s.B := rfl
@[simp] theorem State.setBuf_C (m : Memory) (n : BitVec 8) : (s.setBuf m n).C = s.C := rfl
@[simp] theorem State.setBuf_D (m : Memory) (n : BitVec 8) : (s.setBuf m n).D = s.D := rfl
@[simp] theorem State.setBuf_a (m : Memory) (n : BitVec 8) : (s.setBuf m n).a = s.a := rfl
@[simp] theorem State.setBuf_b (m : Memory) (n : BitVec 8) : (s.setBuf m n).b = s.b := rfl
@[simp] theorem State.setBuf_c (m : Memory) (n : BitVec 8) : (s.setBuf m n).c = s.c := rfl
@[simp] theorem State.setBuf_d (m : Memory) (n : BitVec 8) : (s.setBuf m n).d = s.d := rfl
@[simp] theorem State.setBuf_rnd (m : Memory) (n : BitVec 8) : (s.setBuf m n).rnd = s.rnd := rfl
@[simp] theorem State.setBuf_phase (m : Memory) (n : BitVec 8) : (s.setBuf m n).phase = s.phase := rfl
@[simp] theorem State.setBuf_buf (m : Memory) (n : BitVec 8) : (s.setBuf m n).buf = m := rfl
@[simp] theorem State.setBuf_cnt (m : Memory) (n : BitVec 8) : (s.setBuf m n).cnt = n := rfl
@[simp] theorem State.setBuf_w (m : Memory) (n : BitVec 8) : (s.setBuf m n).w = s.w := rfl
@[simp] theorem State.setBuf_len (m : Memory) (n : BitVec 8) : (s.setBuf m n).len = s.len := rfl
@[simp] theorem State.setBuf_digest (m : Memory) (n : BitVec 8) : (s.setBuf m n).digest = s.digest := rfl
@[simp] theorem State.setBuf_perr (m : Memory) (n : BitVec 8) : (s.setBuf m n).perr = s.perr := rfl
@[simp] theorem State.setBuf_lovf (m : Memory) (n : BitVec 8) : (s.setBuf m n).lovf = s.lovf := rfl
@[simp] theorem State.setBuf_inputs (m : Memory) (n : BitVec 8) : (s.setBuf m n).inputs = s.inputs := rfl
@[simp] theorem State.setBuf_issue (m : Memory) (n : BitVec 8) : (s.setBuf m n).issue = s.issue := rfl
@[simp] theorem State.setBuf_freeIndex (m : Memory) (n : BitVec 8) : (s.setBuf m n).freeIndex = s.freeIndex := rfl

@[simp] theorem State.setCnt_A (n : BitVec 8) : (s.setCnt n).A = s.A := rfl
@[simp] theorem State.setCnt_B (n : BitVec 8) : (s.setCnt n).B = s.B := rfl
@[simp] theorem State.setCnt_C (n : BitVec 8) : (s.setCnt n).C = s.C := rfl
@[simp] theorem State.setCnt_D (n : BitVec 8) : (s.setCnt n).D = s.D := rfl
@[simp] theorem State.setCnt_a (n : BitVec 8) : (s.setCnt n).a = s.a := rfl
@[simp] theorem State.setCnt_b (n : BitVec 8) : (s.setCnt n).b = s.b := rfl
@[simp] theorem State.setCnt_c (n : BitVec 8) : (s.setCnt n).c = s.c := rfl
@[simp] theorem State.setCnt_d (n : BitVec 8) : (s.setCnt n).d = s.d := rfl
@[simp] theorem State.setCnt_rnd (n : BitVec 8) : (s.setCnt n).rnd = s.rnd := rfl
@[simp] theorem State.setCnt_phase (n : BitVec 8) : (s.setCnt n).phase = s.phase := rfl
@[simp] theorem State.setCnt_buf (n : BitVec 8) : (s.setCnt n).buf = s.buf := rfl
@[simp] theorem State.setCnt_cnt (n : BitVec 8) : (s.setCnt n).cnt = n := rfl
@[simp] theorem State.setCnt_w (n : BitVec 8) : (s.setCnt n).w = s.w := rfl
@[simp] theorem State.setCnt_len (n : BitVec 8) : (s.setCnt n).len = s.len := rfl
@[simp] theorem State.setCnt_digest (n : BitVec 8) : (s.setCnt n).digest = s.digest := rfl
@[simp] theorem State.setCnt_perr (n : BitVec 8) : (s.setCnt n).perr = s.perr := rfl
@[simp] theorem State.setCnt_lovf (n : BitVec 8) : (s.setCnt n).lovf = s.lovf := rfl
@[simp] theorem State.setCnt_inputs (n : BitVec 8) : (s.setCnt n).inputs = s.inputs := rfl
@[simp] theorem State.setCnt_issue (n : BitVec 8) : (s.setCnt n).issue = s.issue := rfl
@[simp] theorem State.setCnt_freeIndex (n : BitVec 8) : (s.setCnt n).freeIndex = s.freeIndex := rfl

@[simp] theorem State.setW_A (v : Vector Word 16) : (s.setW v).A = s.A := rfl
@[simp] theorem State.setW_B (v : Vector Word 16) : (s.setW v).B = s.B := rfl
@[simp] theorem State.setW_C (v : Vector Word 16) : (s.setW v).C = s.C := rfl
@[simp] theorem State.setW_D (v : Vector Word 16) : (s.setW v).D = s.D := rfl
@[simp] theorem State.setW_a (v : Vector Word 16) : (s.setW v).a = s.a := rfl
@[simp] theorem State.setW_b (v : Vector Word 16) : (s.setW v).b = s.b := rfl
@[simp] theorem State.setW_c (v : Vector Word 16) : (s.setW v).c = s.c := rfl
@[simp] theorem State.setW_d (v : Vector Word 16) : (s.setW v).d = s.d := rfl
@[simp] theorem State.setW_rnd (v : Vector Word 16) : (s.setW v).rnd = s.rnd := rfl
@[simp] theorem State.setW_phase (v : Vector Word 16) : (s.setW v).phase = s.phase := rfl
@[simp] theorem State.setW_buf (v : Vector Word 16) : (s.setW v).buf = s.buf := rfl
@[simp] theorem State.setW_cnt (v : Vector Word 16) : (s.setW v).cnt = s.cnt := rfl
@[simp] theorem State.setW_w (v : Vector Word 16) : (s.setW v).w = v := rfl
@[simp] theorem State.setW_len (v : Vector Word 16) : (s.setW v).len = s.len := rfl
@[simp] theorem State.setW_digest (v : Vector Word 16) : (s.setW v).digest = s.digest := rfl
@[simp] theorem State.setW_perr (v : Vector Word 16) : (s.setW v).perr = s.perr := rfl
@[simp] theorem State.setW_lovf (v : Vector Word 16) : (s.setW v).lovf = s.lovf := rfl
@[simp] theorem State.setW_inputs (v : Vector Word 16) : (s.setW v).inputs = s.inputs := rfl
@[simp] theorem State.setW_issue (v : Vector Word 16) : (s.setW v).issue = s.issue := rfl
@[simp] theorem State.setW_freeIndex (v : Vector Word 16) : (s.setW v).freeIndex = s.freeIndex := rfl

@[simp] theorem State.setLen_A (n : BitVec 64) (l : Bool) : (s.setLen n l).A = s.A := rfl
@[simp] theorem State.setLen_B (n : BitVec 64) (l : Bool) : (s.setLen n l).B = s.B := rfl
@[simp] theorem State.setLen_C (n : BitVec 64) (l : Bool) : (s.setLen n l).C = s.C := rfl
@[simp] theorem State.setLen_D (n : BitVec 64) (l : Bool) : (s.setLen n l).D = s.D := rfl
@[simp] theorem State.setLen_a (n : BitVec 64) (l : Bool) : (s.setLen n l).a = s.a := rfl
@[simp] theorem State.setLen_b (n : BitVec 64) (l : Bool) : (s.setLen n l).b = s.b := rfl
@[simp] theorem State.setLen_c (n : BitVec 64) (l : Bool) : (s.setLen n l).c = s.c := rfl
@[simp] theorem State.setLen_d (n : BitVec 64) (l : Bool) : (s.setLen n l).d = s.d := rfl
@[simp] theorem State.setLen_rnd (n : BitVec 64) (l : Bool) : (s.setLen n l).rnd = s.rnd := rfl
@[simp] theorem State.setLen_phase (n : BitVec 64) (l : Bool) : (s.setLen n l).phase = s.phase := rfl
@[simp] theorem State.setLen_buf (n : BitVec 64) (l : Bool) : (s.setLen n l).buf = s.buf := rfl
@[simp] theorem State.setLen_cnt (n : BitVec 64) (l : Bool) : (s.setLen n l).cnt = s.cnt := rfl
@[simp] theorem State.setLen_w (n : BitVec 64) (l : Bool) : (s.setLen n l).w = s.w := rfl
@[simp] theorem State.setLen_len (n : BitVec 64) (l : Bool) : (s.setLen n l).len = n := rfl
@[simp] theorem State.setLen_digest (n : BitVec 64) (l : Bool) : (s.setLen n l).digest = s.digest := rfl
@[simp] theorem State.setLen_perr (n : BitVec 64) (l : Bool) : (s.setLen n l).perr = s.perr := rfl
@[simp] theorem State.setLen_lovf (n : BitVec 64) (l : Bool) : (s.setLen n l).lovf = l := rfl
@[simp] theorem State.setLen_inputs (n : BitVec 64) (l : Bool) : (s.setLen n l).inputs = s.inputs := rfl
@[simp] theorem State.setLen_issue (n : BitVec 64) (l : Bool) : (s.setLen n l).issue = s.issue := rfl
@[simp] theorem State.setLen_freeIndex (n : BitVec 64) (l : Bool) : (s.setLen n l).freeIndex = s.freeIndex := rfl

@[simp] theorem State.setDigest_A (v : Vector Byte 16) : (s.setDigest v).A = s.A := rfl
@[simp] theorem State.setDigest_B (v : Vector Byte 16) : (s.setDigest v).B = s.B := rfl
@[simp] theorem State.setDigest_C (v : Vector Byte 16) : (s.setDigest v).C = s.C := rfl
@[simp] theorem State.setDigest_D (v : Vector Byte 16) : (s.setDigest v).D = s.D := rfl
@[simp] theorem State.setDigest_a (v : Vector Byte 16) : (s.setDigest v).a = s.a := rfl
@[simp] theorem State.setDigest_b (v : Vector Byte 16) : (s.setDigest v).b = s.b := rfl
@[simp] theorem State.setDigest_c (v : Vector Byte 16) : (s.setDigest v).c = s.c := rfl
@[simp] theorem State.setDigest_d (v : Vector Byte 16) : (s.setDigest v).d = s.d := rfl
@[simp] theorem State.setDigest_rnd (v : Vector Byte 16) : (s.setDigest v).rnd = s.rnd := rfl
@[simp] theorem State.setDigest_phase (v : Vector Byte 16) : (s.setDigest v).phase = s.phase := rfl
@[simp] theorem State.setDigest_buf (v : Vector Byte 16) : (s.setDigest v).buf = s.buf := rfl
@[simp] theorem State.setDigest_cnt (v : Vector Byte 16) : (s.setDigest v).cnt = s.cnt := rfl
@[simp] theorem State.setDigest_w (v : Vector Byte 16) : (s.setDigest v).w = s.w := rfl
@[simp] theorem State.setDigest_len (v : Vector Byte 16) : (s.setDigest v).len = s.len := rfl
@[simp] theorem State.setDigest_digest (v : Vector Byte 16) : (s.setDigest v).digest = v := rfl
@[simp] theorem State.setDigest_perr (v : Vector Byte 16) : (s.setDigest v).perr = s.perr := rfl
@[simp] theorem State.setDigest_lovf (v : Vector Byte 16) : (s.setDigest v).lovf = s.lovf := rfl
@[simp] theorem State.setDigest_inputs (v : Vector Byte 16) : (s.setDigest v).inputs = s.inputs := rfl
@[simp] theorem State.setDigest_issue (v : Vector Byte 16) : (s.setDigest v).issue = s.issue := rfl
@[simp] theorem State.setDigest_freeIndex (v : Vector Byte 16) : (s.setDigest v).freeIndex = s.freeIndex := rfl

@[simp] theorem State.setPerr_A (e : Bool) : (s.setPerr e).A = s.A := rfl
@[simp] theorem State.setPerr_B (e : Bool) : (s.setPerr e).B = s.B := rfl
@[simp] theorem State.setPerr_C (e : Bool) : (s.setPerr e).C = s.C := rfl
@[simp] theorem State.setPerr_D (e : Bool) : (s.setPerr e).D = s.D := rfl
@[simp] theorem State.setPerr_a (e : Bool) : (s.setPerr e).a = s.a := rfl
@[simp] theorem State.setPerr_b (e : Bool) : (s.setPerr e).b = s.b := rfl
@[simp] theorem State.setPerr_c (e : Bool) : (s.setPerr e).c = s.c := rfl
@[simp] theorem State.setPerr_d (e : Bool) : (s.setPerr e).d = s.d := rfl
@[simp] theorem State.setPerr_rnd (e : Bool) : (s.setPerr e).rnd = s.rnd := rfl
@[simp] theorem State.setPerr_phase (e : Bool) : (s.setPerr e).phase = s.phase := rfl
@[simp] theorem State.setPerr_buf (e : Bool) : (s.setPerr e).buf = s.buf := rfl
@[simp] theorem State.setPerr_cnt (e : Bool) : (s.setPerr e).cnt = s.cnt := rfl
@[simp] theorem State.setPerr_w (e : Bool) : (s.setPerr e).w = s.w := rfl
@[simp] theorem State.setPerr_len (e : Bool) : (s.setPerr e).len = s.len := rfl
@[simp] theorem State.setPerr_digest (e : Bool) : (s.setPerr e).digest = s.digest := rfl
@[simp] theorem State.setPerr_perr (e : Bool) : (s.setPerr e).perr = e := rfl
@[simp] theorem State.setPerr_lovf (e : Bool) : (s.setPerr e).lovf = s.lovf := rfl
@[simp] theorem State.setPerr_inputs (e : Bool) : (s.setPerr e).inputs = s.inputs := rfl
@[simp] theorem State.setPerr_issue (e : Bool) : (s.setPerr e).issue = s.issue := rfl
@[simp] theorem State.setPerr_freeIndex (e : Bool) : (s.setPerr e).freeIndex = s.freeIndex := rfl

end Sys2Proof.Machine
end

