-- ==== Sys2Proof/Laws/Buffer.lean ====
section
/-! SUPPORT. BUF as bytes in a row: writing several, reading a slice; and what the Padder's operations do, each in one lemma. -/

namespace Sys2Proof.Machine

@[simp] theorem andThen_next (s : State) (k : State → Result) : andThen (.next s) k = k s := rfl
@[simp] theorem andThen_fault (f : Fault) (k : State → Result) : andThen (.fault f) k = .fault f := rfl
@[simp] theorem andThen_refused (q : Refusal) (k : State → Result) : andThen (.refused q) k = .refused q := rfl

/-- A chain that answers a next state went through one. -/
theorem andThen_eq_next {r : Result} {k : State → Result} {t : State} :
    andThen r k = .next t ↔ ∃ s, r = .next s ∧ k s = .next t := by
  cases r <;> simp

theorem andThen_assoc (r : Result) (k l : State → Result) :
    andThen (andThen r k) l = andThen r fun s => andThen (k s) l := by
  cases r <;> rfl

theorem Memory.wf_rising {m : Memory} (h : m.wf = true) : Memory.rising m = true := by
  simp only [Memory.wf, Bool.and_eq_true] at h; exact h.1

theorem Memory.read_write {m : Memory} (h : m.wf = true) (i : Nat) (v : Byte) (j : Nat) :
    (m.write i v).read j = if j = i then v else m.read j :=
  Memory.read_write_rising (Memory.wf_rising h) i v j

/-- A row of writes inside BUF keeps the canonical form. -/
theorem memWrite_wf (vs : List Byte) {m : Memory} {i : Nat} (h : m.wf = true) (hi : i + vs.length ≤ Memory.size) :
    (memWrite m i vs).wf = true := by
  induction vs generalizing m i with
  | nil => exact h
  | cons v vs ih =>
    simp only [List.length_cons] at hi
    exact ih (Memory.wf_write v h (by omega)) (by omega)

theorem memWrite_append (xs ys : List Byte) (m : Memory) (i : Nat) :
    memWrite m i (xs ++ ys) = memWrite (memWrite m i xs) (i + xs.length) ys := by
  induction xs generalizing m i with
  | nil => rfl
  | cons x xs ih => simp only [List.cons_append, memWrite, ih, List.length_cons]; congr 1; omega

/-- What a byte reads as after a row of writes. -/
theorem memWrite_read (vs : List Byte) {m : Memory} {i : Nat} (h : m.wf = true) (hi : i + vs.length ≤ Memory.size) (j : Nat) :
    (memWrite m i vs).read j = if i ≤ j then vs.getD (j - i) (m.read j) else m.read j := by
  induction vs generalizing m i with
  | nil => simp [memWrite]
  | cons v vs ih =>
    simp only [List.length_cons] at hi
    rw [memWrite, ih (Memory.wf_write v h (by omega)) (by omega), Memory.read_write h]
    by_cases h1 : i + 1 ≤ j
    · obtain ⟨n, rfl⟩ : ∃ n, j = i + 1 + n := ⟨j - (i + 1), by omega⟩
      simp [show i ≤ i + 1 + n by omega, show i + 1 + n - i = n + 1 by omega, show i + 1 + n ≠ i by omega]
    · rw [if_neg h1]
      by_cases h2 : j = i
      · subst h2; simp
      · rw [if_neg h2, if_neg (by omega)]

/-- Bytes outside the row read as before. -/
theorem memWrite_read_outside (vs : List Byte) {m : Memory} {i : Nat} (h : m.wf = true) (hi : i + vs.length ≤ Memory.size)
    {j : Nat} (hj : j < i ∨ i + vs.length ≤ j) : (memWrite m i vs).read j = m.read j := by
  rw [memWrite_read vs h hi]
  split
  · rw [List.getD_eq_default]; omega
  · rfl

@[simp] theorem Memory.slice_length (m : Memory) (i n : Nat) : (m.slice i n).length = n := by simp [Memory.slice]

theorem Memory.slice_getElem? (m : Memory) (i n k : Nat) :
    (m.slice i n)[k]? = if k < n then some (m.read (i + k)) else none := by
  simp only [Memory.slice, List.getElem?_map]
  by_cases h : k < n <;> simp [h]

/-- Equal readings, equal slices. -/
theorem Memory.slice_congr {m m' : Memory} {i i' n : Nat} (h : ∀ k, k < n → m.read (i + k) = m'.read (i' + k)) :
    m.slice i n = m'.slice i' n := by
  simp only [Memory.slice]
  exact List.map_congr_left fun k hk => h k (List.mem_range.1 hk)

/-- The first bytes of BUF after a row written behind them. -/
theorem slice_memWrite (vs : List Byte) {m : Memory} {i : Nat} (h : m.wf = true) (hi : i + vs.length ≤ Memory.size) :
    (memWrite m i vs).slice 0 (i + vs.length) = m.slice 0 i ++ vs := by
  apply List.ext_getElem?
  intro k
  rw [Memory.slice_getElem?, memWrite_read vs h hi, Nat.zero_add, List.getElem?_append, Memory.slice_length]
  by_cases h1 : k < i
  · rw [if_pos (by omega), if_neg (by omega), if_pos h1, Memory.slice_getElem?, if_pos h1, Nat.zero_add]
  · rw [if_neg h1, if_pos (show i ≤ k by omega)]
    by_cases h2 : k - i < vs.length
    · rw [if_pos (by omega), List.getD_eq_getElem?_getD, List.getElem?_eq_getElem h2]; rfl
    · rw [if_neg (by omega), List.getElem?_eq_none (by omega)]

/-- The first bytes of a slice. -/
theorem Memory.slice_take (m : Memory) {a b : Nat} (h : b ≤ a) : (m.slice 0 a).take b = m.slice 0 b := by
  apply List.ext_getElem?
  intro k
  rw [List.getElem?_take, Memory.slice_getElem?, Memory.slice_getElem?]
  by_cases hk : k < b
  · rw [if_pos hk, if_pos hk, if_pos (by omega)]
  · rw [if_neg hk, if_neg hk]

/-- The last bytes of a slice. -/
theorem Memory.slice_drop (m : Memory) (a b : Nat) : (m.slice 0 a).drop b = m.slice b (a - b) := by
  apply List.ext_getElem?
  intro k
  rw [List.getElem?_drop, Memory.slice_getElem?, Memory.slice_getElem?, Nat.zero_add]
  by_cases hk : b + k < a
  · rw [if_pos hk, if_pos (by omega)]
  · rw [if_neg hk, if_neg (by omega)]

/-! ### Numbers in BUF -/

theorem littleEndian_append (xs ys : List Byte) :
    littleEndian (xs ++ ys) = littleEndian xs + 2 ^ (8 * xs.length) * littleEndian ys := by
  induction xs with
  | nil => simp [littleEndian]
  | cons x xs ih =>
    rw [List.cons_append, littleEndian, littleEndian, ih, List.length_cons, show 8 * (xs.length + 1) = 8 + 8 * xs.length by omega,
      pow_add]
    ring

/-- MemRead is the little-endian number of the bytes read (R11). -/
theorem memRead_eq (m : Memory) (a n : Nat) : memRead m a n = littleEndian (m.slice a n) := by
  induction n with
  | zero => rfl
  | succ n ih =>
    have e : m.slice a (n + 1) = m.slice a n ++ [m.read (a + n)] := by simp [Memory.slice, List.range_succ]
    rw [memRead, ih, e, littleEndian_append]
    simp [littleEndian, Nat.mul_comm]

/-- Read little-endian, the length field is the number it was made from (R125). -/
theorem littleEndian_lengthField (x : BitVec 64) : littleEndian (lengthField x) = x.toNat := by
  have := x.isLt
  have e : lengthField x = [longByte x 0, longByte x 1, longByte x 2, longByte x 3, longByte x 4, longByte x 5,
    longByte x 6, longByte x 7] := rfl
  rw [e]
  simp only [littleEndian, longByte, BitVec.extractLsb'_toNat, Nat.shiftRight_eq_div_pow]
  omega

/-! ### The Padder -/

theorem append_next {v : Byte} {s : State} (h : s.cnt.toNat < 128) :
    append v s = .next (s.setBuf (s.buf.write s.cnt.toNat v) (s.cnt + 1)) := if_pos h

theorem append_full {v : Byte} {s : State} (h : 128 ≤ s.cnt.toNat) : append v s = .fault .bufferOverrun :=
  if_neg (Nat.not_lt.2 h)

/-- Everything an APPEND can do. -/
theorem append_eq_next {v : Byte} {s t : State} :
    append v s = .next t ↔ s.cnt.toNat < 128 ∧ t = s.setBuf (s.buf.write s.cnt.toNat v) (s.cnt + 1) := by
  by_cases h : s.cnt.toNat < 128
  · rw [append_next h]; simp [h, eq_comm]
  · rw [append_full (by omega)]; simp [h]

/-- Adding a small number to CNT. -/
theorem cnt_add {c : BitVec 8} {n : Nat} (h : c.toNat + n < 256) : (c + BitVec.ofNat 8 n).toNat = c.toNat + n := by
  simp only [BitVec.toNat_add, BitVec.toNat_ofNat]; omega

theorem cnt_succ {c : BitVec 8} (h : c.toNat < 255) : (c + 1).toNat = c.toNat + 1 := cnt_add (n := 1) (by omega)

theorem cnt_add_add (c : BitVec 8) (m n : Nat) :
    c + BitVec.ofNat 8 m + BitVec.ofNat 8 n = c + BitVec.ofNat 8 (m + n) := by
  rw [BitVec.add_assoc, BitVec.ofNat_add]

/-- A row of APPENDs that has room. -/
theorem appendAll_next (vs : List Byte) {s : State} (h : s.cnt.toNat + vs.length ≤ 128) :
    appendAll vs s = .next (s.setBuf (memWrite s.buf s.cnt.toNat vs) (s.cnt + BitVec.ofNat 8 vs.length)) := by
  induction vs generalizing s with
  | nil => simp [appendAll, memWrite, State.setBuf]
  | cons v vs ih =>
    simp only [List.length_cons] at h
    have hc : (s.cnt + 1).toNat = s.cnt.toNat + 1 := cnt_succ (by omega)
    rw [appendAll, append_next (by omega), andThen_next, ih (by simp only [State.setBuf_cnt]; omega)]
    simp only [hc, memWrite, List.length_cons, State.setBuf]
    congr 2
    exact (cnt_add_add s.cnt 1 vs.length).trans (by rw [Nat.add_comm])

/-- A row of APPENDs that has no room. -/
theorem appendAll_full (vs : List Byte) {s : State} (h : 128 < s.cnt.toNat + vs.length) (hs : vs ≠ []) :
    appendAll vs s = .fault .bufferOverrun := by
  induction vs generalizing s with
  | nil => exact absurd rfl hs
  | cons v vs ih =>
    simp only [List.length_cons] at h
    by_cases hc : s.cnt.toNat < 128
    · rw [appendAll, append_next hc, andThen_next]
      apply ih
      · rw [State.setBuf_cnt, cnt_succ (by omega)]; omega
      · rintro rfl; simp at h; omega
    · rw [appendAll, append_full (by omega), andThen_fault]

/-- The zero fill, as a row of zeros: to the next count that is 56 modulo 64. -/
theorem padZerosUpTo_next (n : Nat) {s : State} (h : s.cnt.toNat ≤ 120) (hn : (120 - s.cnt.toNat) % 64 ≤ n) :
    padZerosUpTo n s = appendAll (List.replicate ((120 - s.cnt.toNat) % 64) 0x00) s := by
  induction n generalizing s with
  | zero => rw [Nat.le_zero.1 hn]; rfl
  | succ n ih =>
    rw [padZerosUpTo]
    split
    · rw [show (120 - s.cnt.toNat) % 64 = 0 by omega]; rfl
    · have hc : (s.cnt + 1).toNat = s.cnt.toNat + 1 := cnt_succ (by omega)
      rw [append_next (by omega), andThen_next, ih (by simp only [State.setBuf_cnt]; omega)
        (by simp only [State.setBuf_cnt]; omega)]
      rw [show (120 - s.cnt.toNat) % 64 = (120 - (s.cnt + 1).toNat) % 64 + 1 by omega, List.replicate_succ, appendAll,
        append_next (by omega), andThen_next, State.setBuf_cnt]

theorem padZeros_next {s : State} (h : s.cnt.toNat ≤ 120) :
    padZeros s = .next (s.setBuf (memWrite s.buf s.cnt.toNat (List.replicate ((120 - s.cnt.toNat) % 64) 0x00))
      (s.cnt + BitVec.ofNat 8 ((120 - s.cnt.toNat) % 64))) := by
  rw [padZeros, padZerosUpTo_next 63 h (by omega), appendAll_next _ (by simp only [List.length_replicate]; omega),
    List.length_replicate]

/-- The zero fill past the buffer. -/
theorem padZerosUpTo_full (n : Nat) {s : State} (h : 120 < s.cnt.toNat) (hm : s.cnt.toNat % 64 ≠ 56)
    (hn : 129 ≤ s.cnt.toNat + n) : padZerosUpTo n s = .fault .bufferOverrun ∨ n = 0 := by
  induction n generalizing s with
  | zero => exact .inr rfl
  | succ n ih =>
    left
    rw [padZerosUpTo, if_neg hm]
    by_cases hc : s.cnt.toNat < 128
    · have hc' : (s.cnt + 1).toNat = s.cnt.toNat + 1 := cnt_succ (by omega)
      rw [append_next hc, andThen_next]
      rcases ih (s := s.setBuf (s.buf.write s.cnt.toNat 0x00) (s.cnt + 1)) (by simp only [State.setBuf_cnt]; omega)
        (by simp only [State.setBuf_cnt]; omega) (by simp only [State.setBuf_cnt]; omega) with h | rfl
      · exact h
      · omega
    · rw [append_full (by omega), andThen_fault]

theorem padZeros_full {s : State} (h : 120 < s.cnt.toNat) (hm : s.cnt.toNat % 64 ≠ 56) :
    padZeros s = .fault .bufferOverrun := by
  rcases padZerosUpTo_full 63 h hm (by omega) with h | h
  · exact h
  · omega

@[simp] theorem lengthField_length (x : BitVec 64) : (lengthField x).length = 8 := by simp [lengthField]

theorem padLength_next {s : State} (h : s.cnt.toNat ≤ 120) :
    padLength s = .next (s.setBuf (memWrite s.buf s.cnt.toNat (lengthField (bitLen s.len))) (s.cnt + 8)) := by
  rw [padLength, appendAll_next _ (by simp only [lengthField_length]; omega), lengthField_length]; rfl

/-- The bytes PAD writes behind a remainder that ends at `n`. -/
def padBytes (n : Nat) (bits : BitVec 64) : List Byte :=
  0x80 :: (List.replicate ((119 - n) % 64) 0x00 ++ lengthField bits)

theorem padBytes_length (n : Nat) (bits : BitVec 64) : (padBytes n bits).length = 9 + (119 - n) % 64 := by
  simp only [padBytes, List.length_cons, List.length_append, List.length_replicate, lengthField_length]; omega

theorem padFn_eq (rem : List Byte) (bits : BitVec 64) : padFn rem bits = rem ++ padBytes rem.length bits := by
  simp [padFn, padBytes]

/-- PAD, whole: one row of bytes behind the remainder. -/
theorem padAll_next {s : State} (h : s.cnt.toNat ≤ 119) :
    padAll s = .next (s.setBuf (memWrite s.buf s.cnt.toNat (padBytes s.cnt.toNat (bitLen s.len)))
      (s.cnt + BitVec.ofNat 8 (9 + (119 - s.cnt.toNat) % 64))) := by
  have h1 : (s.cnt + 1).toNat = s.cnt.toNat + 1 := cnt_succ (by omega)
  rw [padAll, padMarker, append_next (by omega), andThen_next, padZeros_next (by simp only [State.setBuf_cnt]; omega),
    andThen_next]
  simp only [State.setBuf_buf, State.setBuf_cnt, h1, show 120 - (s.cnt.toNat + 1) = 119 - s.cnt.toNat by omega]
  rw [padLength_next (by simp only [State.setBuf_cnt]; rw [cnt_add (by omega), h1]; omega)]
  simp only [State.setBuf_buf, State.setBuf_cnt, State.setBuf_len]
  rw [cnt_add (by omega), h1]
  simp only [padBytes, memWrite, memWrite_append, List.length_replicate, State.setBuf]
  congr 2
  refine (congrArg (· + BitVec.ofNat 8 8) (cnt_add_add s.cnt 1 _)).trans ((cnt_add_add _ _ _).trans ?_)
  congr 2
  omega

/-! ### The canonical form -/

/-- The reset contents are in canonical form. -/
theorem reset_buf_wf : State.reset.buf.wf = true := rfl

/-- An APPEND that answers keeps the canonical form, whatever CNT was. -/
theorem append_wf {v : Byte} {s t : State} (h : append v s = .next t) (hw : s.buf.wf = true) : t.buf.wf = true := by
  obtain ⟨hc, rfl⟩ := append_eq_next.1 h
  exact Memory.wf_write v hw hc

theorem appendAll_wf (vs : List Byte) {s t : State} (h : appendAll vs s = .next t) (hw : s.buf.wf = true) : t.buf.wf = true := by
  induction vs generalizing s with
  | nil => injection h with h; exact h ▸ hw
  | cons v vs ih =>
    obtain ⟨u, h1, h2⟩ := andThen_eq_next.1 h
    exact ih h2 (append_wf h1 hw)

theorem padZerosUpTo_wf (n : Nat) {s t : State} (h : padZerosUpTo n s = .next t) (hw : s.buf.wf = true) : t.buf.wf = true := by
  induction n generalizing s with
  | zero => injection h with h; exact h ▸ hw
  | succ n ih =>
    rw [padZerosUpTo] at h
    split at h
    · injection h with h; exact h ▸ hw
    · obtain ⟨u, h1, h2⟩ := andThen_eq_next.1 h
      exact ih h2 (append_wf h1 hw)

theorem padAll_wf {s t : State} (h : padAll s = .next t) (hw : s.buf.wf = true) : t.buf.wf = true := by
  obtain ⟨u, h1, h2⟩ := andThen_eq_next.1 h
  obtain ⟨r, h3, h4⟩ := andThen_eq_next.1 h1
  exact appendAll_wf _ h2 (padZerosUpTo_wf _ h4 (append_wf h3 hw))

end Sys2Proof.Machine
end

