-- ==== Sys2Proof/Laws/Caller.lean ====
section
/-! SUPPORT. The hexadecimal rendering and its reading backwards, each function in one lemma. -/

namespace Sys2Proof.Machine

/-- A digit has its value, and it is the only character that has it (R292, R293). -/
theorem hexValue_eq_some (c : Char) (x : BitVec 4) : hexValue c = some x ↔ c = hexDigit x := by
  constructor
  · intro h
    rw [hexValue] at h
    have back : c = Char.ofNat c.toNat := (Char.ofNat_toNat c).symm
    split at h
    · obtain ⟨n, hn⟩ : ∃ n, c.toNat = 48 + n := ⟨c.toNat - 48, by omega⟩
      have : n < 10 := by omega
      obtain rfl := Option.some.inj h
      rw [back, hn]
      interval_cases n <;> rfl
    · split at h
      · obtain ⟨n, hn⟩ : ∃ n, c.toNat = 97 + n := ⟨c.toNat - 97, by omega⟩
        have : n < 6 := by omega
        obtain rfl := Option.some.inj h
        rw [back, hn]
        interval_cases n <;> rfl
      · cases h
  · rintro rfl
    revert x
    decide

/-- Two characters are a byte exactly when HEX renders it so. -/
theorem byteOfHex_eq_some (hi lo : Char) (x : Byte) : byteOfHex hi lo = some x ↔ [hi, lo] = hexByte x := by
  have split8 : ∀ a b : BitVec 4, a ++ b = x ↔ a = x.extractLsb' 4 4 ∧ b = x.extractLsb' 0 4 := by
    intro a b
    constructor
    · rintro rfl
      constructor <;> (apply BitVec.eq_of_getLsbD_eq; intro n hn; rw [BitVec.getLsbD_extractLsb', BitVec.getLsbD_append]; simp [hn])
    · rintro ⟨rfl, rfl⟩
      revert x
      decide
  simp only [byteOfHex, hexByte, Option.pure_def, Option.bind_eq_bind, Option.bind_eq_some_iff, Option.some.injEq,
    hexValue_eq_some, split8, List.cons.injEq, and_true]
  constructor
  · rintro ⟨a, rfl, b, rfl, rfl, rfl⟩; exact ⟨rfl, rfl⟩
  · rintro ⟨h, k⟩; exact ⟨_, h, _, k, rfl, rfl⟩

/-- Characters read in pairs are those bytes exactly when the bytes render to them. -/
theorem bytesOfHex_eq_some : ∀ (cs : List Char) (bs : List Byte), bytesOfHex cs = some bs ↔ cs = bs.flatMap hexByte
  | [], bs => by cases bs <;> simp [bytesOfHex, hexByte]
  | [c], bs => by cases bs <;> simp [bytesOfHex, hexByte]
  | hi :: lo :: rest, bs => by
    simp only [bytesOfHex, Option.pure_def, Option.bind_eq_bind, Option.bind_eq_some_iff, Option.some.injEq, byteOfHex_eq_some,
      bytesOfHex_eq_some rest]
    cases bs with
    | nil => simp
    | cons x bs => simp [hexByte, and_assoc]

/-- A string reads as sixteen bytes exactly when its pairs of characters read as those bytes. -/
theorem digestOfHex_toList (cs : List Char) (v : Vector Byte 16) : digestOfHex cs = some v ↔ bytesOfHex cs = some v.toList := by
  rw [digestOfHex, Option.bind_eq_some_iff]
  constructor
  · rintro ⟨bs, hb, h⟩
    split at h
    · obtain rfl := Option.some.inj h; simpa using hb
    · cases h
  · intro h
    exact ⟨_, h, by simp [Vector.toList]⟩

end Sys2Proof.Machine
end

