-- ==== Sys2Proof/Laws/Compress.lean ====
section
/-! SUPPORT. What a COMPRESS does, in one lemma: it is the pure function of the block's bytes and the State words, and it touches
nothing but the State words and the Compressor's scratch registers. -/

namespace Sys2Proof.Machine

/-! ### The State words under the register updates -/

@[simp] theorem State.setChain_chain (s : State) (A B C D : Word) : (s.setChain A B C D).chain = ⟨A, B, C, D⟩ := rfl
@[simp] theorem State.setWork_chain (s : State) (a b c d : Word) (r : BitVec 6) : (s.setWork a b c d r).chain = s.chain := rfl
@[simp] theorem State.setPhase_chain (s : State) (p : Phase) : (s.setPhase p).chain = s.chain := rfl
@[simp] theorem State.setBuf_chain (s : State) (m : Memory) (n : BitVec 8) : (s.setBuf m n).chain = s.chain := rfl
@[simp] theorem State.setCnt_chain (s : State) (n : BitVec 8) : (s.setCnt n).chain = s.chain := rfl
@[simp] theorem State.setW_chain (s : State) (w : Vector Word 16) : (s.setW w).chain = s.chain := rfl
@[simp] theorem State.setLen_chain (s : State) (n : BitVec 64) (b : Bool) : (s.setLen n b).chain = s.chain := rfl
@[simp] theorem State.setDigest_chain (s : State) (v : Vector Byte 16) : (s.setDigest v).chain = s.chain := rfl
@[simp] theorem State.setPerr_chain (s : State) (b : Bool) : (s.setPerr b).chain = s.chain := rfl

/-- The working variables as four words. -/
def State.work (s : State) : Quad := ⟨s.a, s.b, s.c, s.d⟩

/-- Four words into the working variables. -/
def State.setWorkQuad (s : State) (q : Quad) (rnd : BitVec 6) : State := s.setWork q.A q.B q.C q.D rnd

/-- A number below 2^32 read from four bytes: the same whether the bytes are read in BUF or in a slice of it. -/
theorem blockWord_eq_wordOf (m : Memory) (base j : Nat) (hj : j < 16) : blockWord m base j = wordOf (m.slice base 64) j := by
  have h : ∀ k, k < 64 → (m.slice base 64)[k]? = some (m.read (base + k)) := fun k hk => by
    rw [Memory.slice_getElem?, if_pos hk]
  have ht : ((m.slice base 64).drop (4 * j)).take 4 =
      [m.read (base + 4 * j), m.read (base + 4 * j + 1), m.read (base + 4 * j + 2), m.read (base + 4 * j + 3)] := by
    apply List.ext_getElem?
    intro k
    rw [List.getElem?_take]
    by_cases hk : k < 4
    · rw [if_pos hk, List.getElem?_drop, h _ (by omega)]
      match k, hk with
      | 0, _ => rfl
      | 1, _ => simp [Nat.add_assoc]
      | 2, _ => simp [Nat.add_assoc]
      | 3, _ => simp [Nat.add_assoc]
    · rw [if_neg hk, List.getElem?_eq_none (by simp; omega)]
  rw [blockWord, wordOf, ht]
  congr 1
  simp only [memRead, littleEndian, Nat.add_zero, Nat.mul_zero, Nat.pow_zero, Nat.mul_one, Nat.zero_add]
  omega

/-- Rounds in a row on an engine are rounds in a row on the four working variables. -/
theorem foldl_roundTemplate (T : Tables) (block : List Byte) (is : List (BitVec 6)) (s : State)
    (hw : ∀ g : Fin 16, s.w.get g = wordOf block g.val) :
    is.foldl (roundTemplate T) s = s.setWorkQuad (is.foldl (roundFn T block) s.work) (is.foldl (fun _ i => i + 1) s.rnd) := by
  induction is generalizing s with
  | nil => rfl
  | cons i is ih =>
    rw [List.foldl_cons, ih (roundTemplate T s i) hw]
    simp only [roundTemplate, roundWith, State.setWorkQuad, List.foldl_cons, State.work, State.setWork, roundFn, hw]

/-- The scratch registers and the State words a COMPRESS leaves, all else unchanged. -/
theorem compressBlock_eq (T : Tables) (n : Nat) (s : State) :
    compressBlock T n s =
      (((s.setW (Vector.ofFn fun j => blockWord s.buf n j.val)).setWorkQuad
        (roundsFn T (s.buf.slice n 64) s.chain) 0).setChain
        (compressFn T (s.buf.slice n 64) s.chain).A (compressFn T (s.buf.slice n 64) s.chain).B
        (compressFn T (s.buf.slice n 64) s.chain).C (compressFn T (s.buf.slice n 64) s.chain).D) := by
  have hr : roundIndices.foldl (fun _ i => i + 1) (0 : BitVec 6) = 0 := by decide
  have hw : ∀ g : Fin 16, (loadWork (parseBlock n s)).w.get g = wordOf (s.buf.slice n 64) g.val := fun g => by
    have : (Vector.ofFn fun j : Fin 16 => blockWord s.buf n j.val).get g = blockWord s.buf n g.val := by
      simp [Vector.get_eq_getElem]
    exact this.trans (blockWord_eq_wordOf s.buf n g.val g.isLt)
  rw [compressBlock, allRounds, foldl_roundTemplate T (s.buf.slice n 64) _ _ hw,
    show (loadWork (parseBlock n s)).work = s.chain from rfl, show (loadWork (parseBlock n s)).rnd = 0 from rfl, hr, ← roundsFn,
    compressFn]
  simp only [feedForward, State.setWorkQuad, State.setChain, State.setWork, State.setW, loadWork, parseBlock, Quad.add,
    State.chain]

/-- COMPRESS computes its function (R140). -/
theorem compressBlock_chain (T : Tables) (n : Nat) (s : State) :
    State.chain (compressBlock T n s) = compressFn T (s.buf.slice n 64) s.chain := by
  rw [compressBlock_eq]; simp [State.chain]

section Frame
variable (T : Tables) (n : Nat) (s : State)

@[simp] theorem compressBlock_rnd : (compressBlock T n s).rnd = 0 := by simp [compressBlock_eq, State.setWorkQuad]
@[simp] theorem compressBlock_phase : (compressBlock T n s).phase = s.phase := by simp [compressBlock_eq, State.setWorkQuad]
@[simp] theorem compressBlock_buf : (compressBlock T n s).buf = s.buf := by simp [compressBlock_eq, State.setWorkQuad]
@[simp] theorem compressBlock_cnt : (compressBlock T n s).cnt = s.cnt := by simp [compressBlock_eq, State.setWorkQuad]
@[simp] theorem compressBlock_len : (compressBlock T n s).len = s.len := by simp [compressBlock_eq, State.setWorkQuad]
@[simp] theorem compressBlock_digest : (compressBlock T n s).digest = s.digest := by simp [compressBlock_eq, State.setWorkQuad]
@[simp] theorem compressBlock_perr : (compressBlock T n s).perr = s.perr := by simp [compressBlock_eq, State.setWorkQuad]
@[simp] theorem compressBlock_lovf : (compressBlock T n s).lovf = s.lovf := by simp [compressBlock_eq, State.setWorkQuad]
@[simp] theorem compressBlock_inputs : (compressBlock T n s).inputs = s.inputs := by simp [compressBlock_eq, State.setWorkQuad]
@[simp] theorem compressBlock_issue : (compressBlock T n s).issue = s.issue := by simp [compressBlock_eq, State.setWorkQuad]
@[simp] theorem compressBlock_freeIndex : (compressBlock T n s).freeIndex = s.freeIndex := by simp [compressBlock_eq, State.setWorkQuad]

end Frame

/-- An operation on a block: at 0 or at 64 it runs, anywhere else it is refused. -/
theorem onBase_cases (base : Byte) (f : Nat → State → State) (s : State) :
    (base = 0 ∨ base = 64) ∧ onBase base f s = .next (f base.toNat s) ∨
    (base ≠ 0 ∧ base ≠ 64) ∧ onBase base f s = .refused .badBlockBase := by
  by_cases h0 : base = 0
  · subst h0; exact .inl ⟨.inl rfl, rfl⟩
  · by_cases h1 : base = 64
    · subst h1; exact .inl ⟨.inr rfl, rfl⟩
    · exact .inr ⟨⟨h0, h1⟩, by rw [onBase, blockBase, if_neg h0, if_neg h1]⟩

/-- A ROUND on its own runs exactly when RND is its index. -/
theorem roundAt_eq_next {T : Tables} {i : BitVec 6} {f : Word → Word → Word → Word} {g : Fin 16} {s t : State} :
    roundAt T i f g s = .next t ↔ s.rnd = i ∧ t = roundWith T i f g s := by
  unfold roundAt
  split <;> simp_all [eq_comm]

end Sys2Proof.Machine
end

