-- ==== Sys2Proof/Laws/Encoding.lean ====
section
/-! SUPPORT. Decoding and encoding: the parts of a word, and what a word made of parts decodes to. -/

namespace Sys2Proof

/-- A 16-bit word is its high byte, its bit 7 and its low seven bits. -/
theorem word_parts (w : BitVec 16) :
    w = w.extractLsb' 8 8 ++ BitVec.ofBool (w.getLsbD 7) ++ w.extractLsb' 0 7 := by
  apply BitVec.eq_of_getLsbD_eq
  intro n hn
  rw [BitVec.getLsbD_append, BitVec.getLsbD_append]
  simp only [BitVec.getLsbD_extractLsb']
  by_cases h1 : n < 7
  · simp [h1]
  · by_cases h2 : n = 7
    · subst h2; simp
    · simp [h1, show ¬ (n - 7 < 1) by omega, show n - 7 - 1 < 8 by omega, show 8 + (n - 7 - 1) = n by omega]

/-- The label of a UOP word made of a label and an operand byte. -/
theorem uopWord_label (label : BitVec 7) (operand : Byte) : (uopWord label operand).bits.extractLsb' 0 7 = label := by
  have hx : (operand ++ (0 : BitVec 1) ++ label).extractLsb' 0 7 = label := by
    apply BitVec.eq_of_getLsbD_eq
    intro n hn
    rw [BitVec.getLsbD_extractLsb', BitVec.getLsbD_append]
    simp [hn]
  exact hx

/-- What a UOP word made of a label and an operand byte decodes to. -/
theorem decodeUop_parts (operand : Byte) (label : BitVec 7) :
    decodeUop (uopWord label operand).bits =
      if label.getLsbD 6 then otherOf (label.extractLsb' 0 6) operand
      else plain (roundOf (label.extractLsb' 4 2) (label.extractLsb' 0 4)) operand := by
  have bit : ∀ n, (uopWord label operand).bits.getLsbD n = if n < 7 then label.getLsbD n else
      if n = 7 then false else operand.getLsbD (n - 8) := by
    intro n
    show (operand ++ (0 : BitVec 1) ++ label).getLsbD n = _
    rw [BitVec.getLsbD_append, BitVec.getLsbD_append]
    by_cases h1 : n < 7
    · simp [h1]
    · by_cases h2 : n = 7
      · subst h2; simp
      · simp [h1, h2, show ¬ (n - 7 < 1) by omega, show n - 7 - 1 = n - 8 by omega]
  have low : ∀ a k, a + k ≤ 7 → (uopWord label operand).bits.extractLsb' a k = label.extractLsb' a k := by
    intro a k h
    apply BitVec.eq_of_getLsbD_eq
    intro n hn
    rw [BitVec.getLsbD_extractLsb', BitVec.getLsbD_extractLsb', bit, if_pos (by omega)]
  have high : (uopWord label operand).bits.extractLsb' 8 8 = operand := by
    apply BitVec.eq_of_getLsbD_eq
    intro n hn
    rw [BitVec.getLsbD_extractLsb', bit, if_neg (by omega), if_neg (by omega)]
    simp [hn, show 8 + n - 8 = n by omega]
  rw [decodeUop, high, bit 7, bit 6, low 0 6 (by omega), low 4 2 (by omega), low 0 4 (by omega)]
  simp

end Sys2Proof
end

