-- ==== Sys2Proof/Laws/Operands.lean ====
section
/-! SUPPORT. The operations on words, each in one lemma: rotation, the bytes of a word, the digest's place on 128 wires. -/

namespace Sys2Proof.Machine

/-- rotl32 is the library's rotation. -/
theorem rotl32_eq_rotateLeft (x : Word) (s : Nat) : rotl32 x s = x.rotateLeft s := by
  rw [rotl32]
  split
  · rename_i h
    rw [← BitVec.rotateLeft_mod_eq_rotateLeft, h]; symm; apply BitVec.eq_of_getLsbD_eq; intro n hn; rw [BitVec.getLsbD_rotateLeft]; simp [hn]
  · rename_i h
    rw [BitVec.rotateLeft, BitVec.rotateLeftAux]

/-- A word is the little-endian number of its bytes (R9). -/
theorem littleEndian_wordBytes (x : Word) : BitVec.ofNat 32 (littleEndian [wordByte x 0, wordByte x 1, wordByte x 2, wordByte x 3]) = x := by
  apply BitVec.eq_of_toNat_eq
  have := x.isLt
  simp only [littleEndian, wordByte, BitVec.extractLsb'_toNat, Nat.shiftRight_eq_div_pow, BitVec.toNat_ofNat]
  omega

/-- The bytes of the little-endian number of four bytes are those bytes (R9). -/
theorem wordByte_littleEndian (a b c d : Byte) (k : Nat) (hk : k < 4) : wordByte (BitVec.ofNat 32 (littleEndian [a,b,c,d])) k = [a,b,c,d][k] := by
  apply BitVec.eq_of_toNat_eq
  have := a.isLt
  have := b.isLt
  have := c.isLt
  have := d.isLt
  simp only [littleEndian, wordByte, BitVec.extractLsb'_toNat, Nat.shiftRight_eq_div_pow, BitVec.toNat_ofNat]
  interval_cases k <;> simp only [List.getElem_cons_zero, List.getElem_cons_succ] <;> omega

/-- Byte n of a digest is bits 8n+7:8n of the packed digest (R291). -/
theorem packed_extract (l : List Byte) (n : Nat) (h : n < l.length) (hl : l.length ≤ 16) :
   ((l.foldr (fun (x : Byte) (acc : BitVec 128) => (acc <<< 8) ||| x.setWidth 128) (0 : BitVec 128)).extractLsb' (8 * n) 8) = l[n] := by
  induction l generalizing n with
  | nil => simp at h
  | cons x l ih =>
    simp at h hl
    rw [List.foldr_cons]
    apply BitVec.eq_of_getLsbD_eq
    intro k hk
    rw [BitVec.getLsbD_extractLsb', BitVec.getLsbD_or, BitVec.getLsbD_shiftLeft, BitVec.getLsbD_setWidth]
    cases n with
    | zero => simp [hk]; omega
    | succ n =>
      have := congrArg (fun x => x.getLsbD k) (ih n (by omega) (by omega))
      simp only [BitVec.getLsbD_extractLsb'] at this
      rw [List.getElem_cons_succ, ← this]
      have e : 8 * (n+1) + k - 8 = 8 * n + k := by omega
      rw [e]
      have : x.getLsbD (8 * (n+1) + k) = false := BitVec.getLsbD_of_ge _ _ (by omega)
      rw [this]
      simp [hk, show ¬ (8 * (n+1) + k < 8) by omega, show 8 * (n+1) + k < 128 by omega]


end Sys2Proof.Machine
end

