-- ==== Sys2Proof/Laws/PerInstr.lean ====
section
/-! SUPPORT. Statements made for every instruction, one lemma per constructor (LAWS.json "per_instruction"). -/

namespace Sys2Proof.Laws.UsedCodePoint

/-- What an instruction is encoded as is a code point in use: a command fits ten bits (R90); an internal operation's label has seven
bits and lies below 0x4A, where the unused labels begin (R94, R99). -/
def Statement (i : Instr) : Prop :=
  match (encode i).format with
  | .cmd => (encode i).bits.toNat < 2 ^ 10
  | .uop => (encode i).bits.getLsbD 7 = false ∧ ((encode i).bits.extractLsb' 0 7).toNat < 0x4A

/-- A command word, whatever its operation and its data. -/
theorem of_cmd {i : Instr} (op : BitVec 2) (data : Byte) (h : encode i = cmdWord op data) : Statement i := by
  have e : ∀ (op : BitVec 2) (data : Byte), ((0 : BitVec 6) ++ op ++ data).toNat < 2 ^ 10 := by decide +kernel
  simpa [Statement, h, cmdWord] using e op data

/-- An internal operation's word, whatever its operand byte. -/
theorem of_uop {i : Instr} (label : BitVec 7) (operand : Byte) (h : encode i = uopWord label operand)
    (hl : label.toNat < 0x4A) : Statement i := by
  have hb : (operand ++ (0 : BitVec 1) ++ label).getLsbD 7 = false := by
    rw [BitVec.getLsbD_append, BitVec.getLsbD_append]
    simp
  have hl' : ((operand ++ (0 : BitVec 1) ++ label).extractLsb' 0 7).toNat < 0x4A := by
    rw [show (operand ++ (0 : BitVec 1) ++ label).extractLsb' 0 7 = label from uopWord_label label operand]; exact hl
  simp only [Statement, h, uopWord]
  exact ⟨hb, hl'⟩

theorem init : Statement .init := of_cmd 0b00 0 rfl
theorem data (v : Byte) : Statement (.data v) := of_cmd 0b01 v rfl
theorem endMsg : Statement .endMsg := of_cmd 0b10 0 rfl
theorem fail : Statement .fail := of_cmd 0b11 0 rfl
theorem f00 : Statement .f00 := of_uop 0x00 0 rfl (by decide)
theorem f01 : Statement .f01 := of_uop 0x01 0 rfl (by decide)
theorem f02 : Statement .f02 := of_uop 0x02 0 rfl (by decide)
theorem f03 : Statement .f03 := of_uop 0x03 0 rfl (by decide)
theorem f04 : Statement .f04 := of_uop 0x04 0 rfl (by decide)
theorem f05 : Statement .f05 := of_uop 0x05 0 rfl (by decide)
theorem f06 : Statement .f06 := of_uop 0x06 0 rfl (by decide)
theorem f07 : Statement .f07 := of_uop 0x07 0 rfl (by decide)
theorem f08 : Statement .f08 := of_uop 0x08 0 rfl (by decide)
theorem f09 : Statement .f09 := of_uop 0x09 0 rfl (by decide)
theorem f10 : Statement .f10 := of_uop 0x0a 0 rfl (by decide)
theorem f11 : Statement .f11 := of_uop 0x0b 0 rfl (by decide)
theorem f12 : Statement .f12 := of_uop 0x0c 0 rfl (by decide)
theorem f13 : Statement .f13 := of_uop 0x0d 0 rfl (by decide)
theorem f14 : Statement .f14 := of_uop 0x0e 0 rfl (by decide)
theorem f15 : Statement .f15 := of_uop 0x0f 0 rfl (by decide)
theorem g16 : Statement .g16 := of_uop 0x10 0 rfl (by decide)
theorem g17 : Statement .g17 := of_uop 0x11 0 rfl (by decide)
theorem g18 : Statement .g18 := of_uop 0x12 0 rfl (by decide)
theorem g19 : Statement .g19 := of_uop 0x13 0 rfl (by decide)
theorem g20 : Statement .g20 := of_uop 0x14 0 rfl (by decide)
theorem g21 : Statement .g21 := of_uop 0x15 0 rfl (by decide)
theorem g22 : Statement .g22 := of_uop 0x16 0 rfl (by decide)
theorem g23 : Statement .g23 := of_uop 0x17 0 rfl (by decide)
theorem g24 : Statement .g24 := of_uop 0x18 0 rfl (by decide)
theorem g25 : Statement .g25 := of_uop 0x19 0 rfl (by decide)
theorem g26 : Statement .g26 := of_uop 0x1a 0 rfl (by decide)
theorem g27 : Statement .g27 := of_uop 0x1b 0 rfl (by decide)
theorem g28 : Statement .g28 := of_uop 0x1c 0 rfl (by decide)
theorem g29 : Statement .g29 := of_uop 0x1d 0 rfl (by decide)
theorem g30 : Statement .g30 := of_uop 0x1e 0 rfl (by decide)
theorem g31 : Statement .g31 := of_uop 0x1f 0 rfl (by decide)
theorem h32 : Statement .h32 := of_uop 0x20 0 rfl (by decide)
theorem h33 : Statement .h33 := of_uop 0x21 0 rfl (by decide)
theorem h34 : Statement .h34 := of_uop 0x22 0 rfl (by decide)
theorem h35 : Statement .h35 := of_uop 0x23 0 rfl (by decide)
theorem h36 : Statement .h36 := of_uop 0x24 0 rfl (by decide)
theorem h37 : Statement .h37 := of_uop 0x25 0 rfl (by decide)
theorem h38 : Statement .h38 := of_uop 0x26 0 rfl (by decide)
theorem h39 : Statement .h39 := of_uop 0x27 0 rfl (by decide)
theorem h40 : Statement .h40 := of_uop 0x28 0 rfl (by decide)
theorem h41 : Statement .h41 := of_uop 0x29 0 rfl (by decide)
theorem h42 : Statement .h42 := of_uop 0x2a 0 rfl (by decide)
theorem h43 : Statement .h43 := of_uop 0x2b 0 rfl (by decide)
theorem h44 : Statement .h44 := of_uop 0x2c 0 rfl (by decide)
theorem h45 : Statement .h45 := of_uop 0x2d 0 rfl (by decide)
theorem h46 : Statement .h46 := of_uop 0x2e 0 rfl (by decide)
theorem h47 : Statement .h47 := of_uop 0x2f 0 rfl (by decide)
theorem i48 : Statement .i48 := of_uop 0x30 0 rfl (by decide)
theorem i49 : Statement .i49 := of_uop 0x31 0 rfl (by decide)
theorem i50 : Statement .i50 := of_uop 0x32 0 rfl (by decide)
theorem i51 : Statement .i51 := of_uop 0x33 0 rfl (by decide)
theorem i52 : Statement .i52 := of_uop 0x34 0 rfl (by decide)
theorem i53 : Statement .i53 := of_uop 0x35 0 rfl (by decide)
theorem i54 : Statement .i54 := of_uop 0x36 0 rfl (by decide)
theorem i55 : Statement .i55 := of_uop 0x37 0 rfl (by decide)
theorem i56 : Statement .i56 := of_uop 0x38 0 rfl (by decide)
theorem i57 : Statement .i57 := of_uop 0x39 0 rfl (by decide)
theorem i58 : Statement .i58 := of_uop 0x3a 0 rfl (by decide)
theorem i59 : Statement .i59 := of_uop 0x3b 0 rfl (by decide)
theorem i60 : Statement .i60 := of_uop 0x3c 0 rfl (by decide)
theorem i61 : Statement .i61 := of_uop 0x3d 0 rfl (by decide)
theorem i62 : Statement .i62 := of_uop 0x3e 0 rfl (by decide)
theorem i63 : Statement .i63 := of_uop 0x3f 0 rfl (by decide)
theorem append (v : Byte) : Statement (.append v) := of_uop 0x40 v rfl (by decide)
theorem pad80 : Statement .pad80 := of_uop 0x41 0 rfl (by decide)
theorem padz : Statement .padz := of_uop 0x42 0 rfl (by decide)
theorem padlen : Statement .padlen := of_uop 0x43 0 rfl (by decide)
theorem pad : Statement .pad := of_uop 0x44 0 rfl (by decide)
theorem parse (base : Byte) : Statement (.parse base) := of_uop 0x45 base rfl (by decide)
theorem loadw : Statement .loadw := of_uop 0x46 0 rfl (by decide)
theorem feedfwd : Statement .feedfwd := of_uop 0x47 0 rfl (by decide)
theorem compress (base : Byte) : Statement (.compress base) := of_uop 0x48 base rfl (by decide)
theorem serialize : Statement .serialize := of_uop 0x49 0 rfl (by decide)

end Sys2Proof.Laws.UsedCodePoint
end

