-- ==== Sys2Proof/Laws/Step.lean ====
section
/-! SUPPORT. What the commands and a step can do, each said once: the later lemmas about runs and invariants cite these and unfold
nothing. -/

namespace Sys2Proof.Machine

/-! ### The commands -/

/-- A command word is one of the four commands (R93). -/
theorem decodeCmd_cases (w : CmdWord) :
    decodeCmd w = .init ∨ (∃ v, decodeCmd w = .data v) ∨ decodeCmd w = .endMsg ∨ decodeCmd w = .fail := by
  unfold decodeCmd
  split
  · exact .inl rfl
  · exact .inr (.inl ⟨_, rfl⟩)
  · exact .inr (.inr (.inl rfl))
  · exact .inr (.inr (.inr rfl))

theorem whenReading_reading {s : State} {r : Result} (h : s.phase = .reading) : whenReading s r = r := if_pos h

theorem whenReading_other {s : State} {r : Result} (h : s.phase ≠ .reading) : whenReading s r = .next (s.setPerr true) :=
  if_neg h

/-- INIT and the register updates of `beginMessage`, field by field. -/
theorem beginMessage_eq (s : State) : beginMessage s =
    { s with A := Config.ivA, B := Config.ivB, C := Config.ivC, D := Config.ivD,
             len := 0, cnt := 0, perr := false, lovf := false, phase := .reading } := rfl

/-- LOVF's test is a comparison with 2^61 (R32). -/
theorem lenOverflows_iff (n : BitVec 64) : lenOverflows n = true ↔ 2 ^ 61 ≤ n.toNat := by
  have hn := n.isLt
  have h : (n.extractLsb' 61 3).toNat = n.toNat / 2 ^ 61 := by
    rw [BitVec.extractLsb'_toNat, Nat.shiftRight_eq_div_pow]; omega
  rw [lenOverflows, bne_iff_ne, ne_eq, ← BitVec.toNat_inj, h, show (0 : BitVec 3).toNat = 0 from rfl]
  omega

/-- The state DATA works on after it has stored and counted the byte. -/
def afterByte (v : Byte) (s : State) : State :=
  (s.setBuf (s.buf.write s.cnt.toNat v) (s.cnt + 1)).setLen (s.len + 1) (nextLovf s.lovf (s.len + 1))

theorem takeByte_next {T : Tables} {v : Byte} {s : State} (h : s.cnt.toNat < 128) :
    takeByte T v s = .next (absorbFull T (afterByte v s)) := by
  rw [takeByte, append_next h]; rfl

theorem absorbFull_full {T : Tables} {s : State} (h : s.cnt = 64) : absorbFull T s = (compressBlock T 0 s).setCnt 0 := if_pos h

theorem absorbFull_other {T : Tables} {s : State} (h : s.cnt ≠ 64) : absorbFull T s = s := if_neg h

section Stored
variable (T : Tables) (v : Byte) (s : State)

@[simp] theorem afterByte_A : (afterByte v s).A = s.A := rfl
@[simp] theorem afterByte_B : (afterByte v s).B = s.B := rfl
@[simp] theorem afterByte_C : (afterByte v s).C = s.C := rfl
@[simp] theorem afterByte_D : (afterByte v s).D = s.D := rfl
@[simp] theorem afterByte_a : (afterByte v s).a = s.a := rfl
@[simp] theorem afterByte_b : (afterByte v s).b = s.b := rfl
@[simp] theorem afterByte_c : (afterByte v s).c = s.c := rfl
@[simp] theorem afterByte_d : (afterByte v s).d = s.d := rfl
@[simp] theorem afterByte_rnd : (afterByte v s).rnd = s.rnd := rfl
@[simp] theorem afterByte_w : (afterByte v s).w = s.w := rfl
@[simp] theorem afterByte_phase : (afterByte v s).phase = s.phase := rfl
@[simp] theorem afterByte_buf : (afterByte v s).buf = s.buf.write s.cnt.toNat v := rfl
@[simp] theorem afterByte_cnt : (afterByte v s).cnt = s.cnt + 1 := rfl
@[simp] theorem afterByte_len : (afterByte v s).len = s.len + 1 := rfl
@[simp] theorem afterByte_digest : (afterByte v s).digest = s.digest := rfl
@[simp] theorem afterByte_perr : (afterByte v s).perr = s.perr := rfl
@[simp] theorem afterByte_lovf : (afterByte v s).lovf = nextLovf s.lovf (s.len + 1) := rfl
@[simp] theorem afterByte_inputs : (afterByte v s).inputs = s.inputs := rfl
@[simp] theorem afterByte_issue : (afterByte v s).issue = s.issue := rfl
@[simp] theorem afterByte_freeIndex : (afterByte v s).freeIndex = s.freeIndex := rfl
@[simp] theorem afterByte_chain : (afterByte v s).chain = s.chain := rfl

@[simp] theorem absorbFull_phase : (absorbFull T s).phase = s.phase := by
  by_cases h : s.cnt = 64
  · simp [absorbFull_full h]
  · rw [absorbFull_other h]
@[simp] theorem absorbFull_buf : (absorbFull T s).buf = s.buf := by
  by_cases h : s.cnt = 64
  · simp [absorbFull_full h]
  · rw [absorbFull_other h]
@[simp] theorem absorbFull_len : (absorbFull T s).len = s.len := by
  by_cases h : s.cnt = 64
  · simp [absorbFull_full h]
  · rw [absorbFull_other h]
@[simp] theorem absorbFull_digest : (absorbFull T s).digest = s.digest := by
  by_cases h : s.cnt = 64
  · simp [absorbFull_full h]
  · rw [absorbFull_other h]
@[simp] theorem absorbFull_perr : (absorbFull T s).perr = s.perr := by
  by_cases h : s.cnt = 64
  · simp [absorbFull_full h]
  · rw [absorbFull_other h]
@[simp] theorem absorbFull_lovf : (absorbFull T s).lovf = s.lovf := by
  by_cases h : s.cnt = 64
  · simp [absorbFull_full h]
  · rw [absorbFull_other h]
@[simp] theorem absorbFull_inputs : (absorbFull T s).inputs = s.inputs := by
  by_cases h : s.cnt = 64
  · simp [absorbFull_full h]
  · rw [absorbFull_other h]
@[simp] theorem absorbFull_issue : (absorbFull T s).issue = s.issue := by
  by_cases h : s.cnt = 64
  · simp [absorbFull_full h]
  · rw [absorbFull_other h]
@[simp] theorem absorbFull_freeIndex : (absorbFull T s).freeIndex = s.freeIndex := by
  by_cases h : s.cnt = 64
  · simp [absorbFull_full h]
  · rw [absorbFull_other h]

end Stored

/-- The state END works on after it has padded. -/
def afterPad (s : State) : State :=
  (s.setBuf (memWrite s.buf s.cnt.toNat (padBytes s.cnt.toNat (bitLen s.len)))
    (s.cnt + BitVec.ofNat 8 (9 + (119 - s.cnt.toNat) % 64))).setPhase .finalizing

theorem finishMessage_next {T : Tables} {s : State} (h : s.cnt.toNat ≤ 119) :
    finishMessage T s = .next ((serializeChain (compressPadded T (afterPad s))).setPhase .done) := by
  rw [finishMessage, padAll_next (s := (s.setPhase .draining).setPhase .padding) h]; rfl

theorem compressPadded_one {T : Tables} {s : State} (h : s.cnt ≠ 128) : compressPadded T s = compressBlock T 0 s := by
  rw [compressPadded]; exact if_neg (by rwa [compressBlock_cnt])

theorem compressPadded_two {T : Tables} {s : State} (h : s.cnt = 128) :
    compressPadded T s = compressBlock T 64 (compressBlock T 0 s) := by
  rw [compressPadded]; exact if_pos (by rwa [compressBlock_cnt])

section Padded
variable (T : Tables) (s : State)

@[simp] theorem afterPad_A : (afterPad s).A = s.A := rfl
@[simp] theorem afterPad_B : (afterPad s).B = s.B := rfl
@[simp] theorem afterPad_C : (afterPad s).C = s.C := rfl
@[simp] theorem afterPad_D : (afterPad s).D = s.D := rfl
@[simp] theorem afterPad_a : (afterPad s).a = s.a := rfl
@[simp] theorem afterPad_b : (afterPad s).b = s.b := rfl
@[simp] theorem afterPad_c : (afterPad s).c = s.c := rfl
@[simp] theorem afterPad_d : (afterPad s).d = s.d := rfl
@[simp] theorem afterPad_rnd : (afterPad s).rnd = s.rnd := rfl
@[simp] theorem afterPad_w : (afterPad s).w = s.w := rfl
@[simp] theorem afterPad_phase : (afterPad s).phase = .finalizing := rfl
@[simp] theorem afterPad_buf : (afterPad s).buf = memWrite s.buf s.cnt.toNat (padBytes s.cnt.toNat (bitLen s.len)) := rfl
@[simp] theorem afterPad_cnt : (afterPad s).cnt = s.cnt + BitVec.ofNat 8 (9 + (119 - s.cnt.toNat) % 64) := rfl
@[simp] theorem afterPad_len : (afterPad s).len = s.len := rfl
@[simp] theorem afterPad_digest : (afterPad s).digest = s.digest := rfl
@[simp] theorem afterPad_perr : (afterPad s).perr = s.perr := rfl
@[simp] theorem afterPad_lovf : (afterPad s).lovf = s.lovf := rfl
@[simp] theorem afterPad_inputs : (afterPad s).inputs = s.inputs := rfl
@[simp] theorem afterPad_issue : (afterPad s).issue = s.issue := rfl
@[simp] theorem afterPad_freeIndex : (afterPad s).freeIndex = s.freeIndex := rfl
@[simp] theorem afterPad_chain : (afterPad s).chain = s.chain := rfl

theorem compressPadded_cases : ∃ n, compressPadded T s = compressBlock T n s ∨
    compressPadded T s = compressBlock T 64 (compressBlock T n s) := by
  by_cases h : s.cnt = 128
  · exact ⟨0, .inr (compressPadded_two h)⟩
  · exact ⟨0, .inl (compressPadded_one h)⟩

@[simp] theorem compressPadded_buf : (compressPadded T s).buf = s.buf := by
  obtain ⟨n, h | h⟩ := compressPadded_cases T s <;> simp [h]
@[simp] theorem compressPadded_cnt : (compressPadded T s).cnt = s.cnt := by
  obtain ⟨n, h | h⟩ := compressPadded_cases T s <;> simp [h]
@[simp] theorem compressPadded_phase : (compressPadded T s).phase = s.phase := by
  obtain ⟨n, h | h⟩ := compressPadded_cases T s <;> simp [h]
@[simp] theorem compressPadded_len : (compressPadded T s).len = s.len := by
  obtain ⟨n, h | h⟩ := compressPadded_cases T s <;> simp [h]
@[simp] theorem compressPadded_digest : (compressPadded T s).digest = s.digest := by
  obtain ⟨n, h | h⟩ := compressPadded_cases T s <;> simp [h]
@[simp] theorem compressPadded_perr : (compressPadded T s).perr = s.perr := by
  obtain ⟨n, h | h⟩ := compressPadded_cases T s <;> simp [h]
@[simp] theorem compressPadded_lovf : (compressPadded T s).lovf = s.lovf := by
  obtain ⟨n, h | h⟩ := compressPadded_cases T s <;> simp [h]
@[simp] theorem compressPadded_inputs : (compressPadded T s).inputs = s.inputs := by
  obtain ⟨n, h | h⟩ := compressPadded_cases T s <;> simp [h]
@[simp] theorem compressPadded_issue : (compressPadded T s).issue = s.issue := by
  obtain ⟨n, h | h⟩ := compressPadded_cases T s <;> simp [h]
@[simp] theorem compressPadded_freeIndex : (compressPadded T s).freeIndex = s.freeIndex := by
  obtain ⟨n, h | h⟩ := compressPadded_cases T s <;> simp [h]

end Padded

/-- The State words after the padded tail: one block when the padded length is 64, two when it is 128. -/
theorem compressPadded_chain (T : Tables) (s : State) : (compressPadded T s).chain =
    if s.cnt = 128 then compressFn T (s.buf.slice 64 64) (compressFn T (s.buf.slice 0 64) s.chain)
    else compressFn T (s.buf.slice 0 64) s.chain := by
  by_cases h : s.cnt = 128
  · rw [if_pos h, compressPadded_two h, compressBlock_chain, compressBlock_chain, compressBlock_buf]
  · rw [if_neg h, compressPadded_one h, compressBlock_chain]

/-- DATA in Reading with room in BUF. -/
theorem exec_data {v : Byte} {s : State} (hr : s.phase = .reading) (h : s.cnt.toNat < 128) :
    exec (.data v) s = .next (absorbFull Config.tables (afterByte v s)) := by
  show whenReading _ _ = _
  rw [whenReading_reading hr, takeByte_next h]

/-- END in Reading with room in BUF. -/
theorem exec_endMsg {s : State} (hr : s.phase = .reading) (h : s.cnt.toNat ≤ 119) :
    exec .endMsg s = .next ((serializeChain (compressPadded Config.tables (afterPad s))).setPhase .done) := by
  show whenReading _ _ = _
  rw [whenReading_reading hr, finishMessage_next h]

/-- FAIL in Reading. -/
theorem exec_fail {s : State} (hr : s.phase = .reading) : exec .fail s = .next (s.setPhase .failed) :=
  whenReading_reading hr

/-- INIT in any phase. -/
theorem exec_init (s : State) : exec .init s = .next (beginMessage s) := rfl

/-- The three commands that are legal in Reading only, in another phase. -/
theorem exec_late {i : Instr} {s : State} (hi : (∃ v, i = .data v) ∨ i = .endMsg ∨ i = .fail) (hr : s.phase ≠ .reading) :
    exec i s = .next (s.setPerr true) := by
  rcases hi with ⟨v, rfl⟩ | rfl | rfl <;> exact whenReading_other hr

/-- Everything a command word can do where Reading leaves room for the byte and the padding. -/
theorem exec_command_cases (w : CmdWord) {s : State} (h : s.phase = .reading → s.cnt.toNat ≤ 63) :
    ∃ t, exec (decodeCmd w) s = .next t ∧
      ((decodeCmd w = .init ∧ t = beginMessage s) ∨
       (s.phase ≠ .reading ∧ decodeCmd w ≠ .init ∧ t = s.setPerr true) ∨
       (s.phase = .reading ∧ ∃ v, decodeCmd w = .data v ∧ t = absorbFull Config.tables (afterByte v s)) ∨
       (s.phase = .reading ∧ decodeCmd w = .endMsg ∧
          t = (serializeChain (compressPadded Config.tables (afterPad s))).setPhase .done) ∨
       (s.phase = .reading ∧ decodeCmd w = .fail ∧ t = s.setPhase .failed)) := by
  by_cases hr : s.phase = .reading
  · have := h hr
    rcases decodeCmd_cases w with e | ⟨v, e⟩ | e | e <;> rw [e]
    · exact ⟨_, exec_init s, .inl ⟨rfl, rfl⟩⟩
    · exact ⟨_, exec_data hr (by omega), .inr (.inr (.inl ⟨hr, v, rfl, rfl⟩))⟩
    · exact ⟨_, exec_endMsg hr (by omega), .inr (.inr (.inr (.inl ⟨hr, rfl, rfl⟩)))⟩
    · exact ⟨_, exec_fail hr, .inr (.inr (.inr (.inr ⟨hr, rfl, rfl⟩)))⟩
  · rcases decodeCmd_cases w with e | ⟨v, e⟩ | e | e <;> rw [e]
    · exact ⟨_, exec_init s, .inl ⟨rfl, rfl⟩⟩
    · exact ⟨_, exec_late (.inl ⟨v, rfl⟩) hr, .inr (.inl ⟨hr, by simp, rfl⟩)⟩
    · exact ⟨_, exec_late (.inr (.inl rfl)) hr, .inr (.inl ⟨hr, by simp, rfl⟩)⟩
    · exact ⟨_, exec_late (.inr (.inr rfl)) hr, .inr (.inl ⟨hr, by simp, rfl⟩)⟩

/-! ### The step -/

/-- Everything a step can do when no operation is issued: nothing is offered; or a sample is taken, with `rst`, with a command, or
with neither. -/
theorem step_cases {s : State} (h : s.issue = none) :
    (s.inputs = [] ∧ step s = .next s) ∨
    ∃ p rest, s.inputs = p :: rest ∧
      ((p.rst = true ∧ step s = .next (resetNow s rest)) ∨
       (p.rst = false ∧ p.cmdValid = true ∧
          step s = exec (decodeCmd p.cmd) { s with inputs := rest, freeIndex := s.freeIndex + 1 }) ∨
       (p.rst = false ∧ p.cmdValid = false ∧ step s = .next { s with inputs := rest })) := by
  cases hi : s.inputs with
  | nil => left; exact ⟨rfl, by simp [step, fetch, h, hi]⟩
  | cons p rest =>
    right
    refine ⟨p, rest, rfl, ?_⟩
    cases hr : p.rst <;> cases hv : p.cmdValid <;> simp [step, fetch, h, hi, takeSample, hr, hv]

/-- Everything a step can do when an operation is issued. -/
theorem step_issued {s : State} {u : BitVec 16} (h : s.issue = some u) :
    (s.rstAsserted = true ∧ step s = .next (resetNow s s.inputs.tail)) ∨
    (s.rstAsserted = false ∧ ∃ i, decode ⟨.uop, u⟩ = .ok i ∧ step s = exec i { s with issue := none }) ∨
    (s.rstAsserted = false ∧ (∃ e, decode ⟨.uop, u⟩ = .error e) ∧ step s = .refused .undefinedOperation) := by
  cases hr : s.rstAsserted with
  | true => left; simp [step, fetch, h, hr]
  | false =>
    right
    cases hd : decode ⟨.uop, u⟩ with
    | ok i => left; simp [step, fetch, h, hr, hd]
    | error e => right; simp [step, fetch, h, hr, hd]

/-- A state whose next command has been taken off the ports. -/
def State.taken (s : State) (rest : List PortSample) : State := { s with inputs := rest, freeIndex := s.freeIndex + 1 }

/-- Everything a step can do where what holds between commands holds. -/
theorem step_next_cases {s t : State} (h : s.Inv) (hs : step s = .next t) :
    t = s ∨ ∃ p rest, s.inputs = p :: rest ∧
      ((p.rst = true ∧ t = resetNow s rest) ∨ (p.rst = false ∧ p.cmdValid = false ∧ t = { s with inputs := rest }) ∨
       (p.rst = false ∧ p.cmdValid = true ∧
         ((decodeCmd p.cmd = .init ∧ t = beginMessage (s.taken rest)) ∨
          (s.phase ≠ .reading ∧ decodeCmd p.cmd ≠ .init ∧ t = (s.taken rest).setPerr true) ∨
          (s.phase = .reading ∧ ∃ v, decodeCmd p.cmd = .data v ∧ t = absorbFull Config.tables (afterByte v (s.taken rest))) ∨
          (s.phase = .reading ∧ decodeCmd p.cmd = .endMsg ∧
             t = (serializeChain (compressPadded Config.tables (afterPad (s.taken rest)))).setPhase .done) ∨
          (s.phase = .reading ∧ decodeCmd p.cmd = .fail ∧ t = (s.taken rest).setPhase .failed)))) := by
  rcases step_cases h.quiet with ⟨_, e⟩ | ⟨p, rest, hi, ⟨hr, e⟩ | ⟨hr, hv, e⟩ | ⟨hr, hv, e⟩⟩
  · rw [e] at hs; injection hs with hs; exact .inl hs.symm
  · rw [e] at hs; injection hs with hs; exact .inr ⟨p, rest, hi, .inl ⟨hr, hs.symm⟩⟩
  · obtain ⟨t', e', hc⟩ := exec_command_cases p.cmd (s := s.taken rest) h.readingCnt
    rw [e, show exec (decodeCmd p.cmd) { s with inputs := rest, freeIndex := s.freeIndex + 1 } = .next t' from e'] at hs
    injection hs with hs
    subst hs
    exact .inr ⟨p, rest, hi, .inr (.inr ⟨hr, hv, hc⟩)⟩
  · rw [e] at hs; injection hs with hs; exact .inr ⟨p, rest, hi, .inr (.inl ⟨hr, hv, hs.symm⟩)⟩

end Sys2Proof.Machine
end

