-- ==== Sys2Proof/Laws/Ports.lean ====
section
/-! SUPPORT. What no instruction looks at or spoils: the commands do not look at the ports and do not issue an operation, and every
instruction keeps BUF's canonical form. -/

namespace Sys2Proof.Machine

/-- Every instruction that answers keeps BUF's canonical form, from every state. -/
theorem exec_wf (i : Instr) {s t : State} (h : exec i s = .next t) (hw : s.buf.wf = true) : t.buf.wf = true := by
  cases i
  case init => injection h with h; subst h; exact hw
  case data v =>
    change whenReading _ _ = _ at h
    unfold whenReading at h
    split at h
    · obtain ⟨u, h1, h2⟩ := andThen_eq_next.1 h
      injection h2 with h2; subst h2
      simpa [countByte] using append_wf h1 hw
    · injection h with h; subst h; exact hw
  case endMsg =>
    change whenReading _ _ = _ at h
    unfold whenReading at h
    split at h
    · obtain ⟨u, h1, h2⟩ := andThen_eq_next.1 h
      injection h2 with h2; subst h2
      simpa [serializeChain] using padAll_wf h1 hw
    · injection h with h; subst h; exact hw
  case fail =>
    change whenReading _ _ = _ at h
    unfold whenReading at h
    split at h <;> (injection h with h; subst h; exact hw)
  case append v => exact append_wf h hw
  case pad80 => exact append_wf h hw
  case padz => exact padZerosUpTo_wf _ h hw
  case padlen => exact appendAll_wf _ h hw
  case pad => exact padAll_wf h hw
  case parse b =>
    rcases onBase_cases b parseBlock s with ⟨_, h'⟩ | ⟨_, h'⟩
    · rw [show exec (.parse b) s = _ from h'] at h; injection h with h; subst h; exact hw
    · rw [show exec (.parse b) s = _ from h'] at h; cases h
  case loadw => injection h with h; subst h; exact hw
  case feedfwd => injection h with h; subst h; exact hw
  case compress b =>
    rcases onBase_cases b (compressBlock Config.tables) s with ⟨_, h'⟩ | ⟨_, h'⟩
    · rw [show exec (.compress b) s = _ from h'] at h; injection h with h; subst h; simpa using hw
    · rw [show exec (.compress b) s = _ from h'] at h; cases h
  case serialize => injection h with h; subst h; exact hw
  all_goals
    obtain ⟨_, rfl⟩ := roundAt_eq_next.1 h
    exact hw

/-- The ports and the model's counter, replaced. -/
def withPorts (ins : List PortSample) (f : Nat) (s : State) : State := { s with inputs := ins, freeIndex := f }

/-- A function on the state an outcome answers. -/
def mapNext (g : State → State) : Result → Result
  | .next s => .next (g s)
  | .fault f => .fault f
  | .refused q => .refused q

theorem compressBlock_withPorts (T n ins f) (s : State) : compressBlock T n (withPorts ins f s) = withPorts ins f (compressBlock T n s) := by
  rw [compressBlock_eq, compressBlock_eq]; rfl

theorem compressPadded_withPorts (T ins f) (s : State) : compressPadded T (withPorts ins f s) = withPorts ins f (compressPadded T s) := by
  by_cases h : s.cnt = 128
  · rw [compressPadded_two h, compressPadded_two (s := withPorts ins f s) h, compressBlock_withPorts, compressBlock_withPorts]
  · rw [compressPadded_one h, compressPadded_one (s := withPorts ins f s) h, compressBlock_withPorts]

theorem absorbFull_withPorts (T ins f) (s : State) : absorbFull T (withPorts ins f s) = withPorts ins f (absorbFull T s) := by
  by_cases h : s.cnt = 64
  · rw [absorbFull_full h, absorbFull_full (s := withPorts ins f s) h, compressBlock_withPorts]; rfl
  · rw [absorbFull_other h, absorbFull_other (s := withPorts ins f s) h]

theorem append_withPorts (v ins f) (s : State) : append v (withPorts ins f s) = mapNext (withPorts ins f) (append v s) := by
  by_cases h : s.cnt.toNat < 128
  · rw [append_next h, append_next (s := withPorts ins f s) h]; rfl
  · have h : 128 ≤ s.cnt.toNat := by omega
    rw [append_full h, append_full (s := withPorts ins f s) h]; rfl

theorem andThen_mapNext (g : State → State) (r : Result) (k : State → Result) (hk : ∀ s, k (g s) = mapNext g (k s)) :
    andThen (mapNext g r) k = mapNext g (andThen r k) := by
  cases r <;> simp [mapNext, hk]

theorem appendAll_withPorts (vs ins f) (s : State) : appendAll vs (withPorts ins f s) = mapNext (withPorts ins f) (appendAll vs s) := by
  induction vs generalizing s with
  | nil => rfl
  | cons v vs ih => rw [appendAll, appendAll, append_withPorts, andThen_mapNext _ _ _ ih]

theorem padZerosUpTo_withPorts (n ins f) (s : State) : padZerosUpTo n (withPorts ins f s) = mapNext (withPorts ins f) (padZerosUpTo n s) := by
  induction n generalizing s with
  | zero => rfl
  | succ n ih =>
    rw [padZerosUpTo, padZerosUpTo]
    by_cases h : s.cnt.toNat % 64 = 56
    · rw [if_pos h, if_pos (show (withPorts ins f s).cnt.toNat % 64 = 56 from h)]; rfl
    · rw [if_neg h, if_neg (show ¬ (withPorts ins f s).cnt.toNat % 64 = 56 from h), append_withPorts, andThen_mapNext _ _ _ ih]

theorem padAll_withPorts (ins f) (s : State) : padAll (withPorts ins f s) = mapNext (withPorts ins f) (padAll s) := by
  rw [padAll, padMarker, append_withPorts, andThen_mapNext, andThen_mapNext]
  · rfl
  · intro s; exact appendAll_withPorts _ _ _ _
  · intro s; exact padZerosUpTo_withPorts _ _ _ _

/-- A command does the same whatever the ports and the model's counter hold, and leaves them. -/
theorem exec_withPorts (w : CmdWord) (ins f) (s : State) : exec (decodeCmd w) (withPorts ins f s) = mapNext (withPorts ins f) (exec (decodeCmd w) s) := by
  rcases decodeCmd_cases w with e | ⟨v, e⟩ | e | e <;> rw [e]
  · rfl
  · by_cases h : s.phase = .reading
    · show whenReading _ _ = mapNext _ (whenReading _ _)
      rw [whenReading_reading h, whenReading_reading (s := withPorts ins f s) h, takeByte, takeByte, append_withPorts]
      apply andThen_mapNext
      intro s
      show Host.Outcome.next (absorbFull _ (withPorts ins f (countByte s))) = _
      rw [absorbFull_withPorts]; rfl
    · rw [exec_late (.inl ⟨v, rfl⟩) h, exec_late (s := withPorts ins f s) (.inl ⟨v, rfl⟩) h]; rfl
  · by_cases h : s.phase = .reading
    · show whenReading _ _ = mapNext _ (whenReading _ _)
      rw [whenReading_reading h, whenReading_reading (s := withPorts ins f s) h, finishMessage, finishMessage]
      show andThen (padAll (withPorts ins f ((s.setPhase .draining).setPhase .padding))) _ = _
      rw [padAll_withPorts]
      apply andThen_mapNext
      intro s
      show Host.Outcome.next ((serializeChain (compressPadded _ (withPorts ins f (s.setPhase .finalizing)))).setPhase .done) = _
      rw [compressPadded_withPorts]; rfl
    · rw [exec_late (.inr (.inl rfl)) h, exec_late (s := withPorts ins f s) (.inr (.inl rfl)) h]; rfl
  · by_cases h : s.phase = .reading
    · rw [exec_fail h, exec_fail (s := withPorts ins f s) h]; rfl
    · rw [exec_late (.inr (.inr rfl)) h, exec_late (s := withPorts ins f s) (.inr (.inr rfl)) h]; rfl

theorem appendAll_issue (vs) {s t : State} (h : appendAll vs s = .next t) : t.issue = s.issue := by
  induction vs generalizing s with
  | nil => injection h with h; exact h ▸ rfl
  | cons v vs ih =>
    obtain ⟨u, h1, h2⟩ := andThen_eq_next.1 h
    rw [ih h2]; obtain ⟨_, rfl⟩ := append_eq_next.1 h1; rfl
theorem padZerosUpTo_issue (n) {s t : State} (h : padZerosUpTo n s = .next t) : t.issue = s.issue := by
  induction n generalizing s with
  | zero => injection h with h; exact h ▸ rfl
  | succ n ih =>
    rw [padZerosUpTo] at h
    split at h
    · injection h with h; exact h ▸ rfl
    obtain ⟨u, h1, h2⟩ := andThen_eq_next.1 h
    rw [ih h2]; obtain ⟨_, rfl⟩ := append_eq_next.1 h1; rfl
theorem padAll_issue {s t : State} (h : padAll s = .next t) : t.issue = s.issue := by
  obtain ⟨u, h1, h2⟩ := andThen_eq_next.1 h
  obtain ⟨r, h3, h4⟩ := andThen_eq_next.1 h1
  obtain ⟨_, rfl⟩ := append_eq_next.1 h3
  rw [appendAll_issue _ h2, padZerosUpTo_issue _ h4]; rfl

/-- No command issues an operation. -/
theorem exec_issue (w : CmdWord) {s t : State} (h : exec (decodeCmd w) s = .next t) : t.issue = s.issue := by
  rcases decodeCmd_cases w with e | ⟨v, e⟩ | e | e <;> rw [e] at h
  · injection h with h; subst h; rfl
  · change whenReading _ _ = _ at h
    unfold whenReading at h
    split at h
    · obtain ⟨u, h1, h2⟩ := andThen_eq_next.1 h
      obtain ⟨_, rfl⟩ := append_eq_next.1 h1
      injection h2 with h2; subst h2; simp [countByte]
    · injection h with h; subst h; rfl
  · change whenReading _ _ = _ at h
    unfold whenReading at h
    split at h
    · obtain ⟨u, h1, h2⟩ := andThen_eq_next.1 h
      have := padAll_issue h1
      injection h2 with h2; subst h2; simpa [serializeChain] using this
    · injection h with h; subst h; rfl
  · change whenReading _ _ = _ at h
    unfold whenReading at h
    split at h <;> (injection h with h; subst h; rfl)

/-- A row of accepted commands looks at neither the ports nor the model's counter. -/
theorem runInstrs_withPorts (cs : List PortSample) (ins : List PortSample) (f : Nat) (s : State) :
    runInstrs (acceptedCommands cs) (withPorts ins f s) = mapNext (withPorts ins f) (runInstrs (acceptedCommands cs) s) := by
  induction cs generalizing s with
  | nil => rfl
  | cons c cs ih =>
    cases hv : c.cmdValid
    · rw [show acceptedCommands (c :: cs) = acceptedCommands cs by simp [acceptedCommands, hv], ih]
    · rw [show acceptedCommands (c :: cs) = decodeCmd c.cmd :: acceptedCommands cs by simp [acceptedCommands, hv], runInstrs,
        runInstrs, exec_withPorts, andThen_mapNext _ _ _ ih]

end Sys2Proof.Machine
end

