-- ==== Sys2Proof/Laws/Rounds.lean ====
section
/-! SUPPORT. The 64 rounds as instructions: each is the template at its index, and a row of them is a fold of the template. -/

namespace Sys2Proof.Machine

/-- The ROUND instruction of an index is `roundAt` with the function and the word index computed from it (R143, R148). -/
theorem exec_roundOf (i : BitVec 6) (s : State) :
    exec (roundOf (i.extractLsb' 4 2) (i.extractLsb' 0 4)) s =
      roundAt Config.tables i (mixOf (groupOf i)) (wordIndex i) s := by
  obtain ⟨n, hn, rfl⟩ : ∃ n, n < 64 ∧ i = BitVec.ofNat 6 n := ⟨i.toNat, i.isLt, by simp⟩
  interval_cases n <;> with_unfolding_all rfl

theorem runInstrs_append (is js : List Instr) (s : State) :
    runInstrs (is ++ js) s = andThen (runInstrs is s) (runInstrs js) := by
  induction is generalizing s with
  | nil => rfl
  | cons i is ih =>
    rw [List.cons_append, runInstrs, runInstrs, andThen_assoc]
    exact congrArg _ (funext ih)

/-- Rounds from `k` on, as instructions, from a state with RND at `k`: each leaves RND at the next one's index. -/
theorem runInstrs_rounds (n : Nat) (k : BitVec 6) (s : State) (h : s.rnd = k) :
    runInstrs ((List.range n).map fun j => roundOf ((k + BitVec.ofNat 6 j).extractLsb' 4 2) ((k + BitVec.ofNat 6 j).extractLsb' 0 4)) s =
      .next (((List.range n).map fun j => k + BitVec.ofNat 6 j).foldl (roundTemplate Config.tables) s) := by
  induction n with
  | zero => rfl
  | succ n ih =>
    have hr : ∀ n, (((List.range n).map fun j => k + BitVec.ofNat 6 j).foldl (roundTemplate Config.tables) s).rnd =
        k + BitVec.ofNat 6 n := by
      intro n
      induction n with
      | zero => simp [h]
      | succ n ih =>
        rw [List.range_succ, List.map_append, List.foldl_append]
        show (k + BitVec.ofNat 6 n) + 1 = _
        rw [BitVec.add_assoc]; congr 1; simp [BitVec.ofNat_add]
    rw [List.range_succ, List.map_append, runInstrs_append, ih, andThen_next, List.map_append, List.foldl_append]
    show andThen (exec _ _) _ = _
    rw [exec_roundOf, roundAt_eq_next.2 ⟨hr n, rfl⟩]
    rfl

/-- The rounds of a COMPRESS are the ROUND instructions of the indices 0 to 63. -/
theorem rounds_eq : roundsF.toList ++ roundsG.toList ++ roundsH.toList ++ roundsI.toList =
    (List.range 64).map fun j => roundOf (((0 : BitVec 6) + BitVec.ofNat 6 j).extractLsb' 4 2) (((0 : BitVec 6) + BitVec.ofNat 6 j).extractLsb' 0 4) := by
  decide

end Sys2Proof.Machine
end

