-- ==== Sys2Proof/Tests/Slice0.lean ====
section
/-! SUPPORT. The model's own tests. Expected values are the spec's: the words of spec/30_encoding.md, the examples of the rules, and
spec/95_test_vectors.md. The second half shows, for every statement with hypotheses, a state and operands that meet them. -/

open Sys2Proof Sys2Proof.Machine

namespace Sys2Proof.Tests

/-! ### Helpers -/

/-- What an outcome answers, the reset state where it answers none. -/
def stateOf : Result → State
  | .next s => s
  | .fault _ => State.reset
  | .refused _ => State.reset

/-- The outcome is a next state that passes the check. -/
def passes (r : Result) (check : State → Bool) : Bool :=
  match r with
  | .next s => check s
  | .fault _ => false
  | .refused _ => false

/-- The outcome is a next state. -/
def answers (r : Result) : Bool := passes r fun _ => true

theorem next_of_answers {r : Result} (h : answers r = true) : r = .next (stateOf r) := by
  cases r <;> first | rfl | cases h

/-- The outcome is this fault. -/
def faults (r : Result) (f : Fault) : Bool :=
  match r with
  | .next _ => false
  | .fault g => decide (g = f)
  | .refused _ => false

/-- The outcome is this refusal. -/
def refuses (r : Result) (q : Refusal) : Bool :=
  match r with
  | .next _ => false
  | .fault _ => false
  | .refused p => decide (p = q)

/-- Bytes in BUF from index 0 on. -/
def bufOf (vs : List Byte) : Memory := memWrite [] 0 vs

/-- The letter a, so many times. -/
def letters (n : Nat) : List Byte := List.replicate n 0x61

/-- A state in Reading after so many bytes 0x61, fewer than 64. -/
def reading (n : Nat) : State :=
  { State.reset with buf := bufOf (letters n), cnt := BitVec.ofNat 8 n, len := BitVec.ofNat 64 n }

/-- Done, after the message "abc" (its State words and digest as spec/95_test_vectors.md 3.5 and 3.7 give them). -/
def doneAbc : State :=
  { State.reset with
    A := 0x98500190, B := 0xb04fd23c, C := 0x7d3f96d6, D := 0x727fe128
    phase := .done, cnt := 64, len := 3
    digest := digestBytes 0x98500190 0xb04fd23c 0x7d3f96d6 0x727fe128 }

/-- Failed, after two bytes. -/
def failedTwo : State := { reading 2 with phase := .failed }

/-- A state with a host that offers one sample. -/
def offering (p : PortSample) (s : State) : State := { s with inputs := [p] }

/-- A sample without a command. -/
def quiet : PortSample := { rst := false, cmdValid := false, cmd := 0 }

/-- A sample with `rst`. -/
def resetting : PortSample := { rst := true, cmdValid := true, cmd := 0x161 }

/-- The message block of "abc" (spec/41_compressor.md R140). -/
def abcBlock : List Byte := [0x61, 0x62, 0x63, 0x80] ++ List.replicate 52 0x00 ++ [0x18, 0, 0, 0, 0, 0, 0, 0]

/-- The message block of V3, "The quick brown fox jumps over the lazy dog" (spec/95_test_vectors.md 3.4). -/
def foxBlock : List Byte :=
  [0x54, 0x68, 0x65, 0x20, 0x71, 0x75, 0x69, 0x63, 0x6b, 0x20, 0x62, 0x72, 0x6f, 0x77, 0x6e, 0x20] ++
  [0x66, 0x6f, 0x78, 0x20, 0x6a, 0x75, 0x6d, 0x70, 0x73, 0x20, 0x6f, 0x76, 0x65, 0x72, 0x20, 0x74] ++
  [0x68, 0x65, 0x20, 0x6c, 0x61, 0x7a, 0x79, 0x20, 0x64, 0x6f, 0x67, 0x80, 0x00, 0x00, 0x00, 0x00] ++
  [0x00, 0x00, 0x00, 0x00, 0x00, 0x00, 0x00, 0x00, 0x58, 0x01, 0x00, 0x00, 0x00, 0x00, 0x00, 0x00]

/-! ### Well-formedness -/

theorem test_illformed_parse : (Instr.parse 5).wellFormed = false := by decide
theorem test_illformed_compress : (Instr.compress 65).wellFormed = false := by decide
theorem test_illformed_parse_refused : decode (encode (.parse 5)) = .error .badBlockBase := by decide
theorem test_wellformed_bases : [Instr.parse 0, .parse 64, .compress 0, .compress 64].all Instr.wellFormed = true := by decide

/-! ### Decoding: words written out from R90 to R95 -/

/-- op in bits 9:8, the byte in bits 7:0 (R90, R91). -/
theorem test_decode_commands :
    [0b0000000000000000, 0b0000000101100001, 0b0000001000000000, 0b0000001100000000].map (fun w => decode ⟨.cmd, w⟩) =
      [.ok .init, .ok (.data 0x61), .ok .endMsg, .ok .fail] := by decide

/-- The data field of INIT, END and FAIL is ignored (R92; spec/95_test_vectors.md 3.9). -/
theorem test_decode_ignored_data :
    [0x0FF, 0x2A5, 0x3FF, 0x180].map (fun w => decode ⟨.cmd, w⟩) = [.ok .init, .ok .endMsg, .ok .fail, .ok (.data 0x80)] := by
  decide

/-- A round's label is its index: bit 6 is 0, fn in bits 5:4, j in bits 3:0 (R94, R95). -/
theorem test_decode_round_bits :
    [0b00000000, 0b00001111, 0b00010000, 0b00011011, 0b00100000, 0b00101010, 0b00110000, 0b00111111].map
      (fun w => decode ⟨.uop, w⟩) =
      [.ok .f00, .ok .f15, .ok .g16, .ok .g27, .ok .h32, .ok .h42, .ok .i48, .ok .i63] := by decide

/-- Labels 0x00 to 0x0F (R94). -/
theorem test_decode_F :
    [0x00, 0x01, 0x02, 0x03, 0x04, 0x05, 0x06, 0x07, 0x08, 0x09, 0x0A, 0x0B, 0x0C, 0x0D, 0x0E, 0x0F].map
      (fun w => decode ⟨.uop, w⟩) =
      [.ok .f00, .ok .f01, .ok .f02, .ok .f03, .ok .f04, .ok .f05, .ok .f06, .ok .f07,
       .ok .f08, .ok .f09, .ok .f10, .ok .f11, .ok .f12, .ok .f13, .ok .f14, .ok .f15] := by decide

/-- Labels 0x10 to 0x1F (R94). -/
theorem test_decode_G :
    [0x10, 0x11, 0x12, 0x13, 0x14, 0x15, 0x16, 0x17, 0x18, 0x19, 0x1A, 0x1B, 0x1C, 0x1D, 0x1E, 0x1F].map
      (fun w => decode ⟨.uop, w⟩) =
      [.ok .g16, .ok .g17, .ok .g18, .ok .g19, .ok .g20, .ok .g21, .ok .g22, .ok .g23,
       .ok .g24, .ok .g25, .ok .g26, .ok .g27, .ok .g28, .ok .g29, .ok .g30, .ok .g31] := by decide

/-- Labels 0x20 to 0x2F (R94). -/
theorem test_decode_H :
    [0x20, 0x21, 0x22, 0x23, 0x24, 0x25, 0x26, 0x27, 0x28, 0x29, 0x2A, 0x2B, 0x2C, 0x2D, 0x2E, 0x2F].map
      (fun w => decode ⟨.uop, w⟩) =
      [.ok .h32, .ok .h33, .ok .h34, .ok .h35, .ok .h36, .ok .h37, .ok .h38, .ok .h39,
       .ok .h40, .ok .h41, .ok .h42, .ok .h43, .ok .h44, .ok .h45, .ok .h46, .ok .h47] := by decide

/-- Labels 0x30 to 0x3F (R94). -/
theorem test_decode_I :
    [0x30, 0x31, 0x32, 0x33, 0x34, 0x35, 0x36, 0x37, 0x38, 0x39, 0x3A, 0x3B, 0x3C, 0x3D, 0x3E, 0x3F].map
      (fun w => decode ⟨.uop, w⟩) =
      [.ok .i48, .ok .i49, .ok .i50, .ok .i51, .ok .i52, .ok .i53, .ok .i54, .ok .i55,
       .ok .i56, .ok .i57, .ok .i58, .ok .i59, .ok .i60, .ok .i61, .ok .i62, .ok .i63] := by decide

/-- Labels 0x40 to 0x49 (R94); the operand byte is the model's (log 8). -/
theorem test_decode_operations :
    [0x7F40, 0x0041, 0x0042, 0x0043, 0x0044, 0x4045, 0x0045, 0x0046, 0x0047, 0x0048, 0x4048, 0x0049].map
      (fun w => decode ⟨.uop, w⟩) =
      [.ok (.append 0x7F), .ok .pad80, .ok .padz, .ok .padlen, .ok .pad, .ok (.parse 64), .ok (.parse 0), .ok .loadw,
       .ok .feedfwd, .ok (.compress 0), .ok (.compress 64), .ok .serialize] := by decide

/-- What is no word (R94, R99; log 12). -/
theorem test_decode_rejects :
    [0x4A, 0x7F, 0x80, 0x0141, 0x2045].map (fun w => decode ⟨.uop, w⟩) =
      [.error .unusedLabel, .error .unusedLabel, .error .notSevenBits, .error .unexpectedOperand, .error .badBlockBase] := by
  decide

theorem test_decode_too_long : decode ⟨.cmd, 0x400⟩ = .error .notTenBits := by decide

/-- As spec/opcode_table.json numbers the bits: 10-bit commands, 7-bit labels, each in whole bytes. -/
theorem test_decodeTableWord :
    [decodeTableWord 16 0x100, decodeTableWord 16 0x2FF, decodeTableWord 8 0x3F, decodeTableWord 8 0x48, decodeTableWord 8 0x4A] =
      [some (.data 0), some .endMsg, some .i63, some (.compress 0), none] := by decide

/-- Canonical words of the listings of spec/95_test_vectors.md 4 (R92). -/
theorem test_commandWord :
    [Instr.init, .data 0x61, .endMsg, .fail].map commandWord = [0x000, 0x161, 0x200, 0x300] := by decide

/-! ### Word operations (spec/95_test_vectors.md 3.1) -/

theorem test_add32 :
    add32 0xefcdab89 0xc08226b3 = 0xb04fd23c ∧ add32 0xffffffff 0x00000001 = 0 ∧ add32 0x80000000 0x80000000 = 0 ∧
    add32 0x67452301 0x310ade8f = 0x98500190 := by decide

theorem test_rotl32 :
    [0, 1, 4, 7, 12, 23, 31].map (rotl32 0x80000001) =
      [0x80000001, 0x00000003, 0x00000018, 0x000000c0, 0x00001800, 0x00c00000, 0xc0000000] ∧
    rotl32 0x57ce06d8 7 = 0xe7036c2b ∧ rotl32 0xd76aa4f7 7 = 0xb5527beb := by decide

theorem test_functions :
    [fnF, fnG, fnH, fnI].map (fun f => f 0xefcdab89 0x98badcfe 0x10325476) = [0x98badcfe, 0x88888888, 0x67452301, 0x77777777] ∧
    [fnF, fnG, fnH, fnI].map (fun f => f 0xd6d117b4 0xefcdab89 0x98badcfe) = [0xceebcbca, 0xf7d537b5, 0xa1a660c3, 0x18189c3c] := by
  decide

theorem test_word_index :
    [0, 15, 16, 17, 31, 32, 33, 47, 48, 49, 63].map wordIndex = [0, 15, 1, 6, 12, 5, 8, 2, 0, 7, 9] := by decide

theorem test_tables :
    [0, 15, 16, 31, 32, 47, 48, 63].map (constantOf Config.tables) =
      [0xd76aa478, 0x49b40821, 0xf61e2562, 0x8d2a4c8a, 0xfffa3942, 0xc4ac5665, 0xf4292244, 0xeb86d391] ∧
    [0, 15, 16, 31, 32, 47, 48, 63].map (amountOf Config.tables) = [7, 22, 5, 20, 4, 23, 6, 21] := by decide

/-! ### The rounds: the "abc" block, each example of R200 to R263 -/

/-- An example: the round, the working variables before it and after it, and RND after it. -/
structure RoundExample where
  instr  : Instr
  rnd    : BitVec 6
  before : Quad
  after  : Quad
  next   : BitVec 6

/-- The round of an example does what the example says, on the words of the "abc" block. -/
def RoundExample.holds (e : RoundExample) : Bool :=
  passes (exec e.instr
    { State.reset with
      a := e.before.A, b := e.before.B, c := e.before.C, d := e.before.D, rnd := e.rnd
      w := Vector.ofFn fun j => wordOf abcBlock j.val })
    fun t => decide ((⟨t.a, t.b, t.c, t.d⟩ : Quad) = e.after) && decide (t.rnd = e.next)

/-- The examples of R200 to R215. -/
def examplesF : List RoundExample :=
  [⟨.f00, 0, ⟨0x67452301, 0xefcdab89, 0x98badcfe, 0x10325476⟩, ⟨0x10325476, 0xd6d117b4, 0xefcdab89, 0x98badcfe⟩, 1⟩,
   ⟨.f01, 1, ⟨0x10325476, 0xd6d117b4, 0xefcdab89, 0x98badcfe⟩, ⟨0x98badcfe, 0x344a8432, 0xd6d117b4, 0xefcdab89⟩, 2⟩,
   ⟨.f02, 2, ⟨0x98badcfe, 0x344a8432, 0xd6d117b4, 0xefcdab89⟩, ⟨0xefcdab89, 0x2f6fbd72, 0x344a8432, 0xd6d117b4⟩, 3⟩,
   ⟨.f03, 3, ⟨0xefcdab89, 0x2f6fbd72, 0x344a8432, 0xd6d117b4⟩, ⟨0xd6d117b4, 0x7ad956f2, 0x2f6fbd72, 0x344a8432⟩, 4⟩,
   ⟨.f04, 4, ⟨0xd6d117b4, 0x7ad956f2, 0x2f6fbd72, 0x344a8432⟩, ⟨0x344a8432, 0xc73741ef, 0x7ad956f2, 0x2f6fbd72⟩, 5⟩,
   ⟨.f05, 5, ⟨0x344a8432, 0xc73741ef, 0x7ad956f2, 0x2f6fbd72⟩, ⟨0x2f6fbd72, 0x8bac3051, 0xc73741ef, 0x7ad956f2⟩, 6⟩,
   ⟨.f06, 6, ⟨0x2f6fbd72, 0x8bac3051, 0xc73741ef, 0x7ad956f2⟩, ⟨0x7ad956f2, 0x207dc67b, 0x8bac3051, 0xc73741ef⟩, 7⟩,
   ⟨.f07, 7, ⟨0x7ad956f2, 0x207dc67b, 0x8bac3051, 0xc73741ef⟩, ⟨0xc73741ef, 0x928d99f6, 0x207dc67b, 0x8bac3051⟩, 8⟩] ++
  [⟨.f08, 8, ⟨0xc73741ef, 0x928d99f6, 0x207dc67b, 0x8bac3051⟩, ⟨0x8bac3051, 0x854b3712, 0x928d99f6, 0x207dc67b⟩, 9⟩,
   ⟨.f09, 9, ⟨0x8bac3051, 0x854b3712, 0x928d99f6, 0x207dc67b⟩, ⟨0x207dc67b, 0x74e2f284, 0x854b3712, 0x928d99f6⟩, 10⟩,
   ⟨.f10, 10, ⟨0x207dc67b, 0x74e2f284, 0x854b3712, 0x928d99f6⟩, ⟨0x928d99f6, 0x3020401c, 0x74e2f284, 0x854b3712⟩, 11⟩,
   ⟨.f11, 11, ⟨0x928d99f6, 0x3020401c, 0x74e2f284, 0x854b3712⟩, ⟨0x854b3712, 0x5ed49596, 0x3020401c, 0x74e2f284⟩, 12⟩,
   ⟨.f12, 12, ⟨0x854b3712, 0x5ed49596, 0x3020401c, 0x74e2f284⟩, ⟨0x74e2f284, 0xdda9b9a6, 0x5ed49596, 0x3020401c⟩, 13⟩,
   ⟨.f13, 13, ⟨0x74e2f284, 0xdda9b9a6, 0x5ed49596, 0x3020401c⟩, ⟨0x3020401c, 0xa1051895, 0xdda9b9a6, 0x5ed49596⟩, 14⟩,
   ⟨.f14, 14, ⟨0x3020401c, 0xa1051895, 0xdda9b9a6, 0x5ed49596⟩, ⟨0x5ed49596, 0xe396856b, 0xa1051895, 0xdda9b9a6⟩, 15⟩,
   ⟨.f15, 15, ⟨0x5ed49596, 0xe396856b, 0xa1051895, 0xdda9b9a6⟩, ⟨0xdda9b9a6, 0x72aff2e0, 0xe396856b, 0xa1051895⟩, 16⟩]

theorem test_rounds_F : examplesF.all RoundExample.holds = true := by decide +kernel

/-- The examples of R216 to R231. -/
def examplesG : List RoundExample :=
  [⟨.g16, 16, ⟨0xdda9b9a6, 0x72aff2e0, 0xe396856b, 0xa1051895⟩, ⟨0xa1051895, 0x3e9e9126, 0x72aff2e0, 0xe396856b⟩, 17⟩,
   ⟨.g17, 17, ⟨0xa1051895, 0x3e9e9126, 0x72aff2e0, 0xe396856b⟩, ⟨0xe396856b, 0x4a1d804e, 0x3e9e9126, 0x72aff2e0⟩, 18⟩,
   ⟨.g18, 18, ⟨0xe396856b, 0x4a1d804e, 0x3e9e9126, 0x72aff2e0⟩, ⟨0x72aff2e0, 0xe25e1652, 0x4a1d804e, 0x3e9e9126⟩, 19⟩,
   ⟨.g19, 19, ⟨0x72aff2e0, 0xe25e1652, 0x4a1d804e, 0x3e9e9126⟩, ⟨0x3e9e9126, 0xb5b204e4, 0xe25e1652, 0x4a1d804e⟩, 20⟩,
   ⟨.g20, 20, ⟨0x3e9e9126, 0xb5b204e4, 0xe25e1652, 0x4a1d804e⟩, ⟨0x4a1d804e, 0x59a8ffda, 0xb5b204e4, 0xe25e1652⟩, 21⟩,
   ⟨.g21, 21, ⟨0x4a1d804e, 0x59a8ffda, 0xb5b204e4, 0xe25e1652⟩, ⟨0xe25e1652, 0x6d002f1e, 0x59a8ffda, 0xb5b204e4⟩, 22⟩,
   ⟨.g22, 22, ⟨0xe25e1652, 0x6d002f1e, 0x59a8ffda, 0xb5b204e4⟩, ⟨0xb5b204e4, 0xabfc7920, 0x6d002f1e, 0x59a8ffda⟩, 23⟩,
   ⟨.g23, 23, ⟨0xb5b204e4, 0xabfc7920, 0x6d002f1e, 0x59a8ffda⟩, ⟨0x59a8ffda, 0x47092c07, 0xabfc7920, 0x6d002f1e⟩, 24⟩] ++
  [⟨.g24, 24, ⟨0x59a8ffda, 0x47092c07, 0xabfc7920, 0x6d002f1e⟩, ⟨0x6d002f1e, 0xb7f268cf, 0x47092c07, 0xabfc7920⟩, 25⟩,
   ⟨.g25, 25, ⟨0x6d002f1e, 0xb7f268cf, 0x47092c07, 0xabfc7920⟩, ⟨0xabfc7920, 0x09388eff, 0xb7f268cf, 0x47092c07⟩, 26⟩,
   ⟨.g26, 26, ⟨0xabfc7920, 0x09388eff, 0xb7f268cf, 0x47092c07⟩, ⟨0x47092c07, 0xfe1623b1, 0x09388eff, 0xb7f268cf⟩, 27⟩,
   ⟨.g27, 27, ⟨0x47092c07, 0xfe1623b1, 0x09388eff, 0xb7f268cf⟩, ⟨0xb7f268cf, 0x786acb8f, 0xfe1623b1, 0x09388eff⟩, 28⟩,
   ⟨.g28, 28, ⟨0xb7f268cf, 0x786acb8f, 0xfe1623b1, 0x09388eff⟩, ⟨0x09388eff, 0x790a77fb, 0x786acb8f, 0xfe1623b1⟩, 29⟩,
   ⟨.g29, 29, ⟨0x09388eff, 0x790a77fb, 0x786acb8f, 0xfe1623b1⟩, ⟨0xfe1623b1, 0x9f47e4f8, 0x790a77fb, 0x786acb8f⟩, 30⟩,
   ⟨.g30, 30, ⟨0xfe1623b1, 0x9f47e4f8, 0x790a77fb, 0x786acb8f⟩, ⟨0x786acb8f, 0xa62884aa, 0x9f47e4f8, 0x790a77fb⟩, 31⟩,
   ⟨.g31, 31, ⟨0x786acb8f, 0xa62884aa, 0x9f47e4f8, 0x790a77fb⟩, ⟨0x790a77fb, 0x726342d3, 0xa62884aa, 0x9f47e4f8⟩, 32⟩]

theorem test_rounds_G : examplesG.all RoundExample.holds = true := by decide +kernel

/-- The examples of R232 to R247. -/
def examplesH : List RoundExample :=
  [⟨.h32, 32, ⟨0x790a77fb, 0x726342d3, 0xa62884aa, 0x9f47e4f8⟩, ⟨0x9f47e4f8, 0xb3707ebf, 0x726342d3, 0xa62884aa⟩, 33⟩,
   ⟨.h33, 33, ⟨0x9f47e4f8, 0xb3707ebf, 0x726342d3, 0xa62884aa⟩, ⟨0xa62884aa, 0x60127b2e, 0xb3707ebf, 0x726342d3⟩, 34⟩,
   ⟨.h34, 34, ⟨0xa62884aa, 0x60127b2e, 0xb3707ebf, 0x726342d3⟩, ⟨0x726342d3, 0x8d212ff5, 0x60127b2e, 0xb3707ebf⟩, 35⟩,
   ⟨.h35, 35, ⟨0x726342d3, 0x8d212ff5, 0x60127b2e, 0xb3707ebf⟩, ⟨0xb3707ebf, 0x3b0875c7, 0x8d212ff5, 0x60127b2e⟩, 36⟩,
   ⟨.h36, 36, ⟨0xb3707ebf, 0x3b0875c7, 0x8d212ff5, 0x60127b2e⟩, ⟨0x60127b2e, 0x21b117b9, 0x3b0875c7, 0x8d212ff5⟩, 37⟩,
   ⟨.h37, 37, ⟨0x60127b2e, 0x21b117b9, 0x3b0875c7, 0x8d212ff5⟩, ⟨0x8d212ff5, 0x6e7429d5, 0x21b117b9, 0x3b0875c7⟩, 38⟩,
   ⟨.h38, 38, ⟨0x8d212ff5, 0x6e7429d5, 0x21b117b9, 0x3b0875c7⟩, ⟨0x3b0875c7, 0x3575227e, 0x6e7429d5, 0x21b117b9⟩, 39⟩,
   ⟨.h39, 39, ⟨0x3b0875c7, 0x3575227e, 0x6e7429d5, 0x21b117b9⟩, ⟨0x21b117b9, 0x5a2f5ea5, 0x3575227e, 0x6e7429d5⟩, 40⟩] ++
  [⟨.h40, 40, ⟨0x21b117b9, 0x5a2f5ea5, 0x3575227e, 0x6e7429d5⟩, ⟨0x6e7429d5, 0x11de1779, 0x5a2f5ea5, 0x3575227e⟩, 41⟩,
   ⟨.h41, 41, ⟨0x6e7429d5, 0x11de1779, 0x5a2f5ea5, 0x3575227e⟩, ⟨0x3575227e, 0xfadcaa38, 0x11de1779, 0x5a2f5ea5⟩, 42⟩,
   ⟨.h42, 42, ⟨0x3575227e, 0xfadcaa38, 0x11de1779, 0x5a2f5ea5⟩, ⟨0x5a2f5ea5, 0x31c465ca, 0xfadcaa38, 0x11de1779⟩, 43⟩,
   ⟨.h43, 43, ⟨0x5a2f5ea5, 0x31c465ca, 0xfadcaa38, 0x11de1779⟩, ⟨0x11de1779, 0x4c6124f4, 0x31c465ca, 0xfadcaa38⟩, 44⟩,
   ⟨.h44, 44, ⟨0x11de1779, 0x4c6124f4, 0x31c465ca, 0xfadcaa38⟩, ⟨0xfadcaa38, 0x7f2e507b, 0x4c6124f4, 0x31c465ca⟩, 45⟩,
   ⟨.h45, 45, ⟨0xfadcaa38, 0x7f2e507b, 0x4c6124f4, 0x31c465ca⟩, ⟨0x31c465ca, 0x99d9679d, 0x7f2e507b, 0x4c6124f4⟩, 46⟩,
   ⟨.h46, 46, ⟨0x31c465ca, 0x99d9679d, 0x7f2e507b, 0x4c6124f4⟩, ⟨0x4c6124f4, 0x8fae6399, 0x99d9679d, 0x7f2e507b⟩, 47⟩,
   ⟨.h47, 47, ⟨0x4c6124f4, 0x8fae6399, 0x99d9679d, 0x7f2e507b⟩, ⟨0x7f2e507b, 0x7beb9700, 0x8fae6399, 0x99d9679d⟩, 48⟩]

theorem test_rounds_H : examplesH.all RoundExample.holds = true := by decide +kernel

/-- The examples of R248 to R263. -/
def examplesI : List RoundExample :=
  [⟨.i48, 48, ⟨0x7f2e507b, 0x7beb9700, 0x8fae6399, 0x99d9679d⟩, ⟨0x99d9679d, 0x7b201df8, 0x7beb9700, 0x8fae6399⟩, 49⟩,
   ⟨.i49, 49, ⟨0x99d9679d, 0x7b201df8, 0x7beb9700, 0x8fae6399⟩, ⟨0x8fae6399, 0xf4e8e96e, 0x7b201df8, 0x7beb9700⟩, 50⟩,
   ⟨.i50, 50, ⟨0x8fae6399, 0xf4e8e96e, 0x7b201df8, 0x7beb9700⟩, ⟨0x7beb9700, 0xb298cefd, 0xf4e8e96e, 0x7b201df8⟩, 51⟩,
   ⟨.i51, 51, ⟨0x7beb9700, 0xb298cefd, 0xf4e8e96e, 0x7b201df8⟩, ⟨0x7b201df8, 0x8bf025c4, 0xb298cefd, 0xf4e8e96e⟩, 52⟩,
   ⟨.i52, 52, ⟨0x7b201df8, 0x8bf025c4, 0xb298cefd, 0xf4e8e96e⟩, ⟨0xf4e8e96e, 0x06cc5e8a, 0x8bf025c4, 0xb298cefd⟩, 53⟩,
   ⟨.i53, 53, ⟨0xf4e8e96e, 0x06cc5e8a, 0x8bf025c4, 0xb298cefd⟩, ⟨0xb298cefd, 0x5b0d97aa, 0x06cc5e8a, 0x8bf025c4⟩, 54⟩,
   ⟨.i54, 54, ⟨0xb298cefd, 0x5b0d97aa, 0x06cc5e8a, 0x8bf025c4⟩, ⟨0x8bf025c4, 0x7d632dd0, 0x5b0d97aa, 0x06cc5e8a⟩, 55⟩,
   ⟨.i55, 55, ⟨0x8bf025c4, 0x7d632dd0, 0x5b0d97aa, 0x06cc5e8a⟩, ⟨0x06cc5e8a, 0x3bfa2c27, 0x7d632dd0, 0x5b0d97aa⟩, 56⟩] ++
  [⟨.i56, 56, ⟨0x06cc5e8a, 0x3bfa2c27, 0x7d632dd0, 0x5b0d97aa⟩, ⟨0x5b0d97aa, 0x7f81cc35, 0x3bfa2c27, 0x7d632dd0⟩, 57⟩,
   ⟨.i57, 57, ⟨0x5b0d97aa, 0x7f81cc35, 0x3bfa2c27, 0x7d632dd0⟩, ⟨0x7d632dd0, 0x094454ab, 0x7f81cc35, 0x3bfa2c27⟩, 58⟩,
   ⟨.i58, 58, ⟨0x7d632dd0, 0x094454ab, 0x7f81cc35, 0x3bfa2c27⟩, ⟨0x3bfa2c27, 0x4f9dbe3f, 0x094454ab, 0x7f81cc35⟩, 59⟩,
   ⟨.i59, 59, ⟨0x3bfa2c27, 0x4f9dbe3f, 0x094454ab, 0x7f81cc35⟩, ⟨0x7f81cc35, 0x7327d604, 0x4f9dbe3f, 0x094454ab⟩, 60⟩,
   ⟨.i60, 60, ⟨0x7f81cc35, 0x7327d604, 0x4f9dbe3f, 0x094454ab⟩, ⟨0x094454ab, 0x310ade8f, 0x7327d604, 0x4f9dbe3f⟩, 61⟩,
   ⟨.i61, 61, ⟨0x094454ab, 0x310ade8f, 0x7327d604, 0x4f9dbe3f⟩, ⟨0x4f9dbe3f, 0x624d8cb2, 0x310ade8f, 0x7327d604⟩, 62⟩,
   ⟨.i62, 62, ⟨0x4f9dbe3f, 0x624d8cb2, 0x310ade8f, 0x7327d604⟩, ⟨0x7327d604, 0xe484b9d8, 0x624d8cb2, 0x310ade8f⟩, 63⟩,
   ⟨.i63, 63, ⟨0x7327d604, 0xe484b9d8, 0x624d8cb2, 0x310ade8f⟩, ⟨0x310ade8f, 0xc08226b3, 0xe484b9d8, 0x624d8cb2⟩, 0⟩]

theorem test_rounds_I : examplesI.all RoundExample.holds = true := by decide +kernel

/-- A ROUND not at its index stops (log 9). -/
theorem test_round_out_of_order : faults (exec .g16 { State.reset with rnd := 15 }) .roundOutOfOrder = true := by decide

/-! ### The Padder (R120 to R124; spec/95_test_vectors.md 3.3) -/

theorem test_append : passes (exec (.append 0x80) (reading 3)) (fun t => t.buf.slice 0 5 == [0x61, 0x61, 0x61, 0x80, 0] && t.cnt == 4 && t.len == 3) = true := by
  decide
theorem test_append_zero_over_byte : passes (exec (.append 0x00) { reading 3 with cnt := 1 }) (fun t => t.buf == [(0, 0x61), (2, 0x61)] && t.cnt == 2) = true := by
  decide
theorem test_append_full : faults (exec (.append 1) { State.reset with cnt := 128 }) .bufferOverrun = true := by decide
theorem test_pad80 : passes (exec .pad80 (reading 0)) (fun t => t.buf == [(0, 0x80)] && t.cnt == 1) = true := by decide
theorem test_padz : passes (exec .padz { reading 3 with cnt := 4 }) (fun t => t.cnt == 56 && t.buf == (reading 3).buf) = true := by decide
theorem test_padz_crosses : passes (exec .padz { State.reset with cnt := 57 }) (fun t => t.cnt == 120) = true := by decide
theorem test_padlen : passes (exec .padlen { State.reset with cnt := 56, len := 3 }) (fun t => t.buf == [(56, 0x18)] && t.cnt == 64) = true := by
  decide
theorem test_padlen_not_truncated :
    passes (exec .padlen { State.reset with cnt := 120, len := 0x20000005 }) (fun t => t.buf == [(120, 0x28), (124, 0x01)] && t.cnt == 128) = true := by
  decide
theorem test_pad_55 : passes (exec .pad (reading 55)) (fun t => t.buf.slice 0 64 == letters 55 ++ [0x80, 0xb8, 0x01, 0, 0, 0, 0, 0, 0] && t.cnt == 64) = true := by
  decide +kernel
theorem test_pad_56 :
    passes (exec .pad (reading 56)) (fun t =>
      t.buf.slice 0 128 == letters 56 ++ [0x80] ++ List.replicate 63 0 ++ [0xc0, 0x01, 0, 0, 0, 0, 0, 0] && t.cnt == 128) = true := by
  decide +kernel
theorem test_padFn_rows :
    padFn [] 0 = [0x80] ++ List.replicate 63 0x00 ∧
    padFn (letters 54) 432 = letters 54 ++ [0x80, 0x00, 0xb0, 0x01, 0, 0, 0, 0, 0, 0] ∧
    padFn [] 0xFFFFFFFFFFFFFFF8 = [0x80] ++ List.replicate 55 0 ++ [0xf8, 0xff, 0xff, 0xff, 0xff, 0xff, 0xff, 0xff] := by
  decide +kernel

/-! ### The Compressor (spec/95_test_vectors.md 3.4, 3.5) and the Serializer (3.7) -/

theorem test_parse :
    passes (exec (.parse 64) { State.reset with buf := memWrite [] 64 foxBlock }) (fun t => t.w.toList ==
      [0x20656854, 0x63697571, 0x7262206b, 0x206e776f, 0x20786f66, 0x706d756a, 0x766f2073, 0x74207265, 0x6c206568, 0x20797a61,
       0x80676f64, 0, 0, 0, 0x00000158, 0]) = true := by decide +kernel
theorem test_parse_elsewhere : refuses (exec (.parse 4) State.reset) .badBlockBase = true := by decide
theorem test_loadw :
    passes (exec .loadw { State.reset with rnd := 9 })
      (fun t => [t.a, t.b, t.c, t.d] == [0x67452301, 0xefcdab89, 0x98badcfe, 0x10325476] && t.rnd == 0) = true := by decide
theorem test_feedfwd :
    passes (exec .feedfwd { State.reset with a := 0x310ade8f, b := 0xc08226b3, c := 0xe484b9d8, d := 0x624d8cb2 })
      (fun t => [t.A, t.B, t.C, t.D] == [0x98500190, 0xb04fd23c, 0x7d3f96d6, 0x727fe128]) = true := by decide
theorem test_compress_abc :
    passes (exec (.compress 0) { State.reset with buf := bufOf abcBlock })
      (fun t => decide (t.chain = ⟨0x98500190, 0xb04fd23c, 0x7d3f96d6, 0x727fe128⟩)) = true := by decide +kernel
theorem test_compress_zeros :
    passes (exec (.compress 64) State.reset) (fun t => decide (t.chain = ⟨0x031f1dac, 0x6ea58ed0, 0x1fab67b7, 0x74317791⟩)) = true := by
  decide +kernel
theorem test_compressFn :
    compressFn Config.tables (List.replicate 64 0xff) ⟨0xffffffff, 0xffffffff, 0xffffffff, 0xffffffff⟩ =
      ⟨0x6cba9129, 0x29ffd12a, 0x8b9bb7d3, 0xa9a0a3c1⟩ := by decide +kernel
theorem test_serialize :
    passes (exec .serialize { State.reset with A := 0xd98c1dd4, B := 0x04b2008f, C := 0x980980e9, D := 0x7e42f8ec })
      (fun t => t.digest.toList ==
        [0xd4, 0x1d, 0x8c, 0xd9, 0x8f, 0x00, 0xb2, 0x04, 0xe9, 0x80, 0x09, 0x98, 0xec, 0xf8, 0x42, 0x7e]) = true := by decide
theorem test_hex :
    hexOf (digestBytes 0x00000001 0x00000000 0x0a000000 0xffffffff) = "01000000000000000000000affffffff".toList := by decide
/-- R293's two strings. -/
theorem test_read_backwards :
    quadOfHex "900150983cd24fb0d6963f7d28e17f72".toList = some ⟨0x98500190, 0xb04fd23c, 0x7d3f96d6, 0x727fe128⟩ ∧
    quadOfHex "9e107d9d372bb6826bd81d3542a419d6".toList = some ⟨0x9d7d109e, 0x82b62b37, 0x351dd86b, 0xd619a442⟩ := by decide +kernel
theorem test_read_backwards_rejects :
    digestOfHex "900150983cd24fb0d6963f7d28e17f7".toList = none ∧ digestOfHex "900150983CD24FB0D6963F7D28E17F72".toList = none := by
  decide +kernel
theorem test_digest_port :
    State.digestPort { State.reset with phase := .done, digest := digestBytes 0xd98c1dd4 0x04b2008f 0x980980e9 0x7e42f8ec } =
      0x7e42f8ec980980e904b2008fd98c1dd4 := by decide

/-! ### Whole messages (V1, V2, V3; spec/95_test_vectors.md 3.8) -/

theorem test_digest_empty : hexOf (digestFn Config.tables []) = "d41d8cd98f00b204e9800998ecf8427e".toList := by decide +kernel
theorem test_digest_abc :
    hexOf (digestFn Config.tables [0x61, 0x62, 0x63]) = "900150983cd24fb0d6963f7d28e17f72".toList := by decide +kernel
theorem test_digest_fox :
    hexOf (digestFn Config.tables (foxBlock.take 43)) = "9e107d9d372bb6826bd81d3542a419d6".toList := by decide +kernel
theorem test_digest_56 : hexOf (digestFn Config.tables (letters 56)) = "3b0c8ac703f828b04c6c197006d17218".toList := by decide +kernel
theorem test_digest_64 : hexOf (digestFn Config.tables (letters 64)) = "014842d480b571495a4a0363793f7367".toList := by decide +kernel

/-! ### The commands (R271 to R275; spec/95_test_vectors.md 3.9) -/

theorem test_init : passes (exec .init { doneAbc with perr := true }) (fun t => t.status == 0x00 && t.len == 0 && t.cnt == 0 && t.A == 0x67452301) = true := by
  decide
theorem test_data : passes (exec (.data 0x63) (reading 2)) (fun t =>
    t.buf.slice 0 3 == [0x61, 0x61, 0x63] && t.cnt == 3 && t.len == 3 && t.status == 0x00 && t.A == 0x67452301) = true := by decide
theorem test_data_64th : passes (exec (.data 0x61) (reading 63)) (fun t =>
    t.cnt == 0 && t.len == 64 && t.status == 0x00 && decide (t.chain = ⟨0x89d4ff56, 0x125cd962, 0x69cade33, 0x0033e325⟩)) = true := by
  decide +kernel
theorem test_data_overflow : passes (exec (.data 1) { State.reset with len := 0x1FFFFFFFFFFFFFFF, cnt := 63 })
    (fun t => t.len == 0x2000000000000000 && t.lovf && t.status == 0x10) = true := by decide +kernel
theorem test_end_empty : passes (exec .endMsg State.reset) (fun t =>
    t.status == 0x04 && t.cnt == 64 && t.len == 0 && t.buf == [(0, 0x80)] &&
      decide (t.chain = ⟨0xd98c1dd4, 0x04b2008f, 0x980980e9, 0x7e42f8ec⟩)) = true := by decide +kernel
theorem test_end_56 : passes (exec .endMsg (reading 56)) (fun t =>
    t.status == 0x04 && t.cnt == 128 && hexOf t.digestOut == "3b0c8ac703f828b04c6c197006d17218".toList) = true := by decide +kernel
theorem test_fail : passes (exec .fail (reading 2)) (fun t => t.status == 0x05 && t.cnt == 2 && t.len == 2) = true := by decide
theorem test_fail_in_done : passes (exec .fail doneAbc) (fun t => t.status == 0x0C && t.digest == doneAbc.digest) = true := by decide
theorem test_data_in_done : passes (exec (.data 0x64) doneAbc) (fun t => t.status == 0x0C && t.len == 3 && t.cnt == 64) = true := by decide
theorem test_end_in_failed : passes (exec .endMsg { failedTwo with perr := true }) (fun t => t.status == 0x0D && t.cnt == 2) = true := by decide

/-! ### The ports -/

theorem test_step_command : passes (step (offering (offer 0x161) (reading 2))) (fun t => t.cnt == 3 && t.inputs == []) = true := by decide
theorem test_step_reset : passes (step (offering resetting doneAbc)) (fun t => t.status == 0x00 && t.cnt == 0 && t.inputs == []) = true := by decide
theorem test_step_issued : passes (step { State.reset with issue := some 0x41, inputs := [offer 0x200] })
    (fun t => t.buf == [(0, 0x80)] && t.inputs.length == 1 && t.cmdReady) = true := by decide
theorem test_step_unused_label : refuses (step { State.reset with issue := some 0x4A }) .undefinedOperation = true := by decide
theorem test_withFetchWord_round : passes (step (State.reset.withFetchWord 8 0x3F)) (fun t => t.rnd == 0 && t.issue == none) = true := by decide
theorem test_withFetchWord_command : passes (step (State.reset.withFetchWord 16 0x1AB)) (fun t => t.buf == [(0, 0xAB)]) = true := by decide

/-! ### The caller's functions (R100, R101) -/

theorem test_expand :
    expandTrace [.command .init, .text ['a', 'b'], .rep 2 0x00, .bytes [], .command .endMsg] =
      [.init, .data 0x61, .data 0x62, .data 0, .data 0, .endMsg] := by decide

/-! ### Witnesses: for every statement with hypotheses, states and operands that meet them, at the edges of each clause -/

/-- The states the witnesses use meet what holds between commands. -/
theorem inv_reading (n : Nat) (h : n ≤ 63) : (reading n).Inv where
  bufWf := memWrite_wf _ rfl (by simp [letters, Memory.size]; omega)
  quiet := rfl
  stable := rfl
  readingCnt _ := by simp [reading]; omega
  readingLen _ _ := by simp [reading]; omega
  readingPerr _ := rfl
  lovfClear _ := by simp [reading]; omega
  doneCnt h := by cases h
  doneDigest h := by cases h

theorem inv_doneAbc : doneAbc.Inv where
  bufWf := rfl
  quiet := rfl
  stable := rfl
  readingCnt h := by cases h
  readingLen h := by cases h
  readingPerr h := by cases h
  lovfClear _ := by decide
  doneCnt _ := .inl rfl
  doneDigest _ := rfl

theorem inv_failedTwo : failedTwo.Inv where
  bufWf := by decide
  quiet := rfl
  stable := rfl
  readingCnt h := by cases h
  readingLen h := by cases h
  readingPerr h := by cases h
  lovfClear _ := by decide
  doneCnt h := by cases h
  doneDigest h := by cases h

/-- An offered sample changes nothing of what holds between commands. -/
theorem inv_offering {s : State} (p : PortSample) (h : s.Inv) : (offering p s).Inv :=
  ⟨h.bufWf, h.quiet, h.stable, h.readingCnt, h.readingLen, h.readingPerr, h.lovfClear, h.doneCnt, h.doneDigest⟩

theorem test_witness_DecodeEncodeRoundTrip :
    [Instr.data 0xFF, .append 0, .parse 0, .parse 64, .compress 0, .compress 64, .i63].all Instr.wellFormed = true := by decide

theorem test_witness_DecodedWordIsItsEncoding :
    decode ⟨.cmd, 0x2A5⟩ = .ok .endMsg ∧ decode ⟨.cmd, 0x1FF⟩ = .ok (.data 0xFF) ∧ decode ⟨.uop, 0x4048⟩ = .ok (.compress 64) := by
  decide

theorem test_witness_UnusedLabels : 0x4A ≤ (0x4A : BitVec 7).toNat ∧ 0x4A ≤ (0x7F : BitVec 7).toNat := by decide

theorem test_witness_RotationIsCircular :
    (rotl32 0x80000001 1).toNat = (0x80000001 * 2 ^ 1) % 2 ^ 32 + 0x80000001 / 2 ^ 31 ∧
    (rotl32 0x80000001 31).toNat = (0x80000001 * 2 ^ 31) % 2 ^ 32 + 0x80000001 / 2 ^ 1 := by decide

theorem test_witness_RoundFunctionsBitByBit :
    (fnF 1 1 0).getLsbD 0 = true ∧ (fnG 0x80000000 0 0x80000000).getLsbD 31 = true ∧ (fnI 0 0 0).getLsbD 31 = true := by decide

/-- Each row of the eight round statements has a state with RND as it requires. -/
theorem test_witness_RoundRows :
    (roundsFLow ++ roundsFHigh ++ roundsGLow ++ roundsGHigh ++ roundsHLow ++ roundsHHigh ++ roundsILow ++ roundsIHigh).all
      (fun r => decide (({ State.reset with rnd := r.i } : State).rnd = r.i) &&
        answers (exec r.instr { State.reset with rnd := r.i })) = true := by decide +kernel

theorem test_witness_EveryRoundIsTheTemplate :
    isRound 0 .f00 ∧ State.reset.rnd = 0 ∧ isRound 63 .i63 ∧ ({ State.reset with rnd := 63 } : State).rnd = 63 :=
  ⟨rfl, rfl, rfl, rfl⟩

theorem test_witness_OperationsOutOfPlaceStop :
    isRound 1 .f01 ∧ State.reset.rnd ≠ 1 ∧ isRound 0 .f00 ∧ ({ State.reset with rnd := 63 } : State).rnd ≠ 0 ∧
    (1 : Byte) ≠ 0 ∧ (1 : Byte) ≠ 64 ∧ (63 : Byte) ≠ 0 ∧ (63 : Byte) ≠ 64 ∧ (65 : Byte) ≠ 0 ∧ (65 : Byte) ≠ 64 :=
  ⟨rfl, by decide, rfl, by decide, by decide, by decide, by decide, by decide, by decide, by decide⟩

theorem test_witness_AppendStoresOneByte :
    (reading 0).buf.wf = true ∧ (reading 0).cnt.toNat ≤ 127 ∧
    ({ reading 63 with cnt := 127 } : State).buf.wf = true ∧ ({ reading 63 with cnt := 127 } : State).cnt.toNat ≤ 127 := by decide

theorem test_witness_ZeroFillReaches56Modulo64 :
    (reading 56).buf.wf = true ∧ (reading 56).cnt.toNat = 55 + 1 ∧ (reading 1).buf.wf = true ∧ (reading 1).cnt.toNat = 0 + 1 ∧
    ({ reading 63 with cnt := 64 } : State).cnt.toNat = 63 + 1 ∧ ({ reading 56 with cnt := 57 } : State).cnt.toNat = 56 + 1 ∧
    ({ reading 1 with cnt := 120 } : State).cnt.toNat ≤ 120 := by decide

theorem test_witness_LengthFieldIsAppended :
    ({ reading 3 with cnt := 56 } : State).buf.wf = true ∧ ({ reading 3 with cnt := 56 } : State).cnt.toNat ≤ 120 ∧
    ({ reading 3 with cnt := 120, len := 0xFFFFFFFFFFFFFFFF } : State).cnt.toNat ≤ 120 := by decide

theorem test_witness_PadBuildsThePaddedTail :
    [0, 55, 56, 63].all (fun n => (reading n).buf.wf && decide ((reading n).cnt.toNat = n)) = true := by decide

theorem test_witness_PaddedOutputShape : [0, 55, 56, 63].all (fun n => decide ((letters n).length = n)) = true := by decide

theorem test_witness_PadderStopsPastTheBuffer :
    faults (exec .pad80 { State.reset with cnt := 128 }) .bufferOverrun = true ∧
    faults (exec (.append 0) { State.reset with cnt := 255 }) .bufferOverrun = true ∧
    passes (exec .padz { State.reset with cnt := 120 }) (fun t => t.cnt == 120) = true ∧
    faults (exec .padz { State.reset with cnt := 121 }) .bufferOverrun = true ∧
    faults (exec .padlen { State.reset with cnt := 121 }) .bufferOverrun = true ∧
    faults (exec .pad { State.reset with cnt := 120 }) .bufferOverrun = true := by decide

theorem test_witness_ParseReadsLittleEndianWords :
    (0 : Byte) = 0 ∧ (64 : Byte) = 64 ∧ answers (exec (.parse 0) (reading 4)) = true ∧ answers (exec (.parse 64) (reading 4)) = true := by
  decide +kernel

theorem test_witness_CompressComputesItsFunction :
    answers (exec (.compress 0) (reading 4)) = true ∧ answers (exec (.compress 64) (reading 4)) = true := by decide +kernel

theorem test_witness_DigestPortLayout :
    doneAbc.phase = .done ∧ doneAbc.digest = digestBytes doneAbc.A doneAbc.B doneAbc.C doneAbc.D ∧
    doneAbc.digestPort.extractLsb' 0 8 = 0x90 ∧ doneAbc.digestPort.extractLsb' 120 8 = 0x72 := by decide

theorem test_witness_HexRendersEachByteHighNibbleFirst :
    (hexOf doneAbc.digest)[0]? = some '9' ∧ (hexOf doneAbc.digest)[31]? = some '2' := by decide

theorem test_witness_DataTakesOneByte :
    [0, 62, 63].all (fun n => (reading n).buf.wf && decide ((reading n).phase = .reading) && decide ((reading n).cnt.toNat = n)) = true := by
  decide

theorem test_witness_EndFinishesTheMessage :
    [0, 55, 56, 63].all (fun n => (reading n).buf.wf && decide ((reading n).phase = .reading) && decide ((reading n).cnt.toNat = n)) = true := by
  decide

theorem test_witness_FailAbortsTheComputation : (reading 2).phase = .reading ∧ (reading 0).phase = .reading := by decide

theorem test_witness_LateCommandsOnlySetPerr :
    doneAbc.phase = .done ∧ failedTwo.phase = .failed ∧ [Instr.data 0, .endMsg, .fail].all (fun i =>
      passes (exec i doneAbc) (fun t => t.perr) && passes (exec i failedTwo) (fun t => t.perr)) = true := by decide

theorem test_witness_CommandsInUnreachableStates :
    [Phase.draining, .padding, .finalizing].all (fun p => !p.stable) = true ∧
    faults (exec (.data 0) { State.reset with cnt := 128 }) .bufferOverrun = true ∧
    faults (exec .endMsg { State.reset with cnt := 120 }) .bufferOverrun = true ∧
    answers (exec .fail { State.reset with phase := .padding }) = true := by decide

/-- Every visible status value has a state with what holds between commands; here the five the flags LOVF = 0 allow. -/
theorem test_witness_StatusWordLayoutAndVisibleValues :
    (reading 0).Inv ∧ (reading 0).status = 0x00 ∧ doneAbc.Inv ∧ doneAbc.status = 0x04 ∧ failedTwo.Inv ∧ failedTwo.status = 0x05 ∧
    ({ doneAbc with perr := true, lovf := true } : State).status = 0x1C :=
  ⟨inv_reading 0 (by omega), by decide, inv_doneAbc, by decide, inv_failedTwo, by decide, by decide⟩

theorem test_witness_ResetStateAndItsEffect :
    (offering resetting doneAbc).inputs = resetting :: [] ∧ resetting.rst = true ∧
    step (offering resetting doneAbc) = .next (stateOf (step (offering resetting doneAbc))) ∧
    answers (step { offering resetting (reading 5) with issue := some 0x41 }) = true :=
  ⟨rfl, rfl, next_of_answers (by decide), by decide⟩

theorem test_witness_StepRunsTheAcceptedCommand :
    (offering (offer 0x161) (reading 5)).cmdReady = true ∧ (offer 0x161).rst = false ∧ (offer 0x161).cmdValid = true ∧
    (offering (offer 0x161) (reading 5)).inputs = offer 0x161 :: [] := by decide

theorem test_witness_StepRunsTheIssuedOperation :
    ({ reading 5 with issue := some 0x41 } : State).rstAsserted = false ∧ decode ⟨.uop, 0x41⟩ = .ok .pad80 ∧
    decode ⟨.uop, 0x4A⟩ = .error .unusedLabel := by decide

theorem test_witness_PlacedWordRunsNext :
    decodeTableWord 16 0x161 = some (.data 0x61) ∧ decodeTableWord 8 0x3F = some .i63 ∧ isRound 63 .i63 ∧
    decodeTableWord 8 0x00 = some .f00 ∧ decodeTableWord 8 0x49 = some .serialize :=
  ⟨by decide, by decide, rfl, by decide, by decide⟩

theorem test_witness_IdleEngineHoldsItsState :
    (reading 5).issue = none ∧ (reading 5).inputs = [] ∧ (offering quiet (reading 5)).inputs = quiet :: [] ∧
    quiet.rst = false ∧ quiet.cmdValid = false := by decide

/-- A step from a state with what holds between commands: of `StepKeepsTheInvariant` and `CommandsAlwaysComplete`. -/
theorem test_witness_StepKeepsTheInvariant :
    (offering (offer 0x161) (reading 62)).Inv ∧
    step (offering (offer 0x161) (reading 62)) = .next (stateOf (step (offering (offer 0x161) (reading 62)))) ∧
    (offering (offer 0x200) (reading 0)).Inv ∧
    step (offering (offer 0x200) (reading 0)) = .next (stateOf (step (offering (offer 0x200) (reading 0)))) :=
  ⟨inv_offering _ (inv_reading 62 (by omega)), next_of_answers (by decide +kernel), inv_offering _ (inv_reading 0 (by omega)),
    next_of_answers (by decide +kernel)⟩

theorem test_witness_StepKeepsBufCanonical :
    ({ reading 5 with issue := some 0x44 } : State).buf.wf = true ∧ answers (step { reading 5 with issue := some 0x44 }) = true := by
  decide

/-- From Done: a late command, and an INIT; from Reading: DATA, END, FAIL. -/
theorem test_witness_PhaseNeverGoesBack :
    (offering (offer 0x200) doneAbc).Inv ∧ passes (step (offering (offer 0x200) doneAbc)) (fun t => t.phase == .done) = true ∧
    passes (step (offering (offer 0x000) doneAbc)) (fun t => t.phase == .reading) = true ∧
    StartsOver (offering (offer 0x000) doneAbc) ∧
    (offering (offer 0x300) (reading 5)).Inv ∧ passes (step (offering (offer 0x300) (reading 5))) (fun t => t.phase == .failed) = true ∧
    passes (step (offering (offer 0x200) (reading 5))) (fun t => t.phase == .done) = true :=
  ⟨inv_offering _ inv_doneAbc, by decide, by decide, ⟨offer 0x000, [], rfl, .inr ⟨rfl, by decide⟩⟩, inv_offering _ (inv_reading 5 (by omega)),
    by decide, by decide +kernel⟩

/-- A state one byte below the length that sets LOVF. -/
def brink : State := { reading 63 with len := 0x1FFFFFFFFFFFFFFF }

theorem inv_brink : brink.Inv where
  bufWf := by decide
  quiet := rfl
  stable := rfl
  readingCnt _ := by decide
  readingLen _ _ := by decide
  readingPerr _ := rfl
  lovfClear _ := by decide
  doneCnt h := by cases h
  doneDigest h := by cases h

/-- The four clauses: PERR kept and cleared, LOVF kept, PERR set, LOVF set. -/
theorem test_witness_FlagsAreStickyAndSetOnlyByTheirCauses :
    passes (step (offering (offer 0x300) { doneAbc with perr := true })) (fun t => t.perr) = true ∧
    passes (step (offering (offer 0x0FF) { doneAbc with perr := true })) (fun t => !t.perr) = true ∧
    passes (step (offering (offer 0x300) { reading 5 with lovf := true })) (fun t => t.lovf) = true ∧
    (offering (offer 0x300) failedTwo).Inv ∧ passes (step (offering (offer 0x300) failedTwo)) (fun t => t.perr) = true ∧
    (offering (offer 0x161) brink).Inv ∧ passes (step (offering (offer 0x161) brink)) (fun t => t.lovf) = true :=
  ⟨by decide, by decide, by decide, inv_offering _ inv_failedTwo, by decide, inv_offering _ inv_brink, by decide +kernel⟩

theorem test_witness_DigestIsImmutableInDone :
    (offering (offer 0x164) doneAbc).Inv ∧ (offering (offer 0x164) doneAbc).phase = .done ∧
    step (offering (offer 0x164) doneAbc) = .next (stateOf (step (offering (offer 0x164) doneAbc))) :=
  ⟨inv_offering _ inv_doneAbc, rfl, next_of_answers (by decide)⟩

/-- The State words change: by the 64th DATA, by END, by INIT. -/
theorem test_witness_StateWordsChangeOnlyByInitResetAndCompress :
    (offering (offer 0x161) (reading 63)).Inv ∧
    passes (step (offering (offer 0x161) (reading 63))) (fun t => decide (t.chain ≠ (reading 63).chain)) = true ∧
    passes (step (offering (offer 0x200) (reading 5))) (fun t => decide (t.chain ≠ (reading 5).chain)) = true ∧
    passes (step (offering (offer 0x000) doneAbc)) (fun t => decide (t.chain ≠ doneAbc.chain)) = true :=
  ⟨inv_offering _ (inv_reading 63 (by omega)), by decide +kernel, by decide +kernel, by decide⟩

/-- Two different states that agree on what the spec gives a value. -/
theorem test_witness_UnspecifiedStateNeverMatters :
    (reading 5).Inv ∧ ({ reading 5 with a := 1, rnd := 7, digest := doneAbc.digest } : State).Inv ∧
    Agree (reading 5) { reading 5 with a := 1, rnd := 7, digest := doneAbc.digest } ∧
    reading 5 ≠ { reading 5 with a := 1, rnd := 7, digest := doneAbc.digest } ∧
    Agree doneAbc { doneAbc with b := 3 } := by
  have h := inv_reading 5 (by omega)
  refine ⟨h, ?_, ⟨rfl, rfl, rfl, rfl, rfl, fun h => ?_, rfl, rfl⟩, by decide, ⟨rfl, rfl, rfl, rfl, rfl, fun _ => rfl, rfl, rfl⟩⟩
  · exact ⟨h.bufWf, h.quiet, h.stable, h.readingCnt, h.readingLen, h.readingPerr, h.lovfClear, fun h => (by cases h), fun h => (by cases h)⟩
  · cases h

theorem test_witness_EnginesAreIndependent :
    ∃ sys' : System, System.stepEngine [reading 5, offering (offer 0x161) (reading 5), doneAbc] 1 = .next sys' ∧
      sys'[0]? = some (reading 5) ∧ sys'[2]? = some doneAbc :=
  ⟨[reading 5, stateOf (step (offering (offer 0x161) (reading 5))), doneAbc], rfl, rfl, rfl⟩

/-- Of `MessageGivesItsDigest`, `ReadGroupingDoesNotMatter` and `FailedRunYieldsNothing`: the empty message and another, from Done. -/
theorem test_witness_MessageGivesItsDigest :
    doneAbc.buf.wf = true ∧ ([] : List Byte).length < 2 ^ 61 ∧ (letters 65).length < 2 ^ 61 := by
  refine ⟨rfl, by decide, ?_⟩
  rw [letters, List.length_replicate]; decide

theorem test_witness_ReadGroupingDoesNotMatter :
    doneAbc.buf.wf = true ∧ ([[0x61], [], [0x62, 0x63]] : List (List Byte)).flatten.length < 2 ^ 61 ∧
    ([[0x61, 0x62, 0x63]] : List (List Byte)).flatten = ([[0x61], [], [0x62, 0x63]] : List (List Byte)).flatten := by decide

theorem test_witness_FailedRunYieldsNothing :
    ([0x61, 0x62] : List Byte).length < 2 ^ 61 ∧
    ∀ i ∈ [Instr.data 0x63, .endMsg, .fail], (∃ v, i = .data v) ∨ i = .endMsg ∨ i = .fail := by
  refine ⟨by decide, fun i hi => ?_⟩
  simp only [List.mem_cons, List.not_mem_nil, or_false] at hi
  rcases hi with rfl | rfl | rfl
  · exact .inl ⟨_, rfl⟩
  · exact .inr (.inl rfl)
  · exact .inr (.inr rfl)

/-- The samples of the message "a", with delays, from Done. -/
def delayed : List PortSample := [quiet, offer 0x000, quiet, quiet, offer 0x161, offer 0x2FF]

/-- Of `PortsDeliverTheDigest` and `StepsAreTheAcceptedCommandsInOrder`. -/
theorem test_witness_PortsDeliverTheDigest :
    ({ doneAbc with inputs := delayed } : State).buf.wf = true ∧ ({ doneAbc with inputs := delayed } : State).issue = none ∧
    (∀ p ∈ delayed, p.rst = false) ∧ acceptedCommands delayed = [.init] ++ ([0x61] : List Byte).map .data ++ [.endMsg] := by decide

theorem test_witness_StepsAreTheAcceptedCommandsInOrder :
    passes (steps delayed.length { doneAbc with inputs := delayed }) (fun t =>
      hexOf t.digestOut == "0cc175b9c0f1b6a831c399e269772661".toList && t.freeIndex == 3) = true := by decide +kernel

theorem test_witness_NotationExpands : ∀ c ∈ ['a', 'Z', '~'], c.toNat < 128 := by
  intro c hc
  simp only [List.mem_cons, List.not_mem_nil, or_false] at hc
  rcases hc with rfl | rfl | rfl <;> decide

end Sys2Proof.Tests
end

section
/-! PROOFS of the family 00_scope: rotation as an action of the amounts modulo 32, and its value as a number (R10, R150). -/

namespace Sys2Proof.Machine

/-- Bits are counted from the most significant end, towards which the rotation moves them. -/
theorem getMsbD_rotl32 (x : Word) (s n : Nat) : (rotl32 x s).getMsbD n = (decide (n < 32) && x.getMsbD ((s + n) % 32)) := by
  rw [rotl32_eq_rotateLeft, BitVec.getMsbD_rotateLeft]

theorem rotl32_mod (x : Word) (s : Nat) : rotl32 x (s % 32) = rotl32 x s := by
  simp only [rotl32, Nat.mod_mod]

@[simp] theorem rotl32_zero (x : Word) : rotl32 x 0 = x := by
  simp [rotl32]

/-- Rotating twice is rotating by the sum: bit n comes from bit s + (t + n), modulo 32. -/
theorem rotl32_rotl32 (x : Word) (s t : Nat) : rotl32 (rotl32 x s) t = rotl32 x (s + t) := by
  apply BitVec.eq_of_getMsbD_eq
  intro n hn
  have source : (s + (t + n) % 32) % 32 = (s + t + n) % 32 := by omega
  simp only [getMsbD_rotl32, source, Nat.mod_lt _ (show 0 < 32 by decide), decide_true, Bool.true_and]

/-- Amounts that add up to full turns undo each other. -/
theorem rotl32_rotl32_of_fullTurn {s t : Nat} (h : (s + t) % 32 = 0) (x : Word) : rotl32 (rotl32 x s) t = x := by
  rw [rotl32_rotl32, ← rotl32_mod, h, rotl32_zero]

/-- What is left of the amount's last turn is the amount of the inverse. -/
theorem rotl32_bijective (s : Nat) : Function.Bijective fun x : Word => rotl32 x s :=
  Function.bijective_iff_has_inverse.mpr ⟨fun y => rotl32 y (32 - s % 32),
    fun x => rotl32_rotl32_of_fullTurn (by omega) x, fun y => rotl32_rotl32_of_fullTurn (by omega) y⟩

/-- The part shifted up is a multiple of 2^s and the part brought in at the bottom is below 2^s, so the two share no bit
and their union is their sum. -/
theorem toNat_rotl32 (x : Word) {s : Nat} (hpos : 1 ≤ s) (hlt : s ≤ 31) :
    (rotl32 x s).toNat = (x.toNat * 2 ^ s) % 2 ^ 32 + x.toNat / 2 ^ (32 - s) := by
  have hmod : s % 32 = s := Nat.mod_eq_of_lt (by omega)
  have turn : (2 : Nat) ^ 32 = 2 ^ s * 2 ^ (32 - s) := by rw [← Nat.pow_add]; congr 1; omega
  have upper : (x.toNat * 2 ^ s) % 2 ^ 32 = 2 ^ s * (x.toNat % 2 ^ (32 - s)) := by
    rw [turn, Nat.mul_comm x.toNat, Nat.mul_mod_mul_left]
  have lower : x.toNat / 2 ^ (32 - s) < 2 ^ s := by
    rw [Nat.div_lt_iff_lt_mul (Nat.two_pow_pos _), ← turn]; exact x.isLt
  calc (rotl32 x s).toNat
      = (x.toNat * 2 ^ s) % 2 ^ 32 ||| x.toNat / 2 ^ (32 - s) := by
        rw [rotl32_eq_rotateLeft, BitVec.toNat_rotateLeft, hmod, Nat.shiftLeft_eq, Nat.shiftRight_eq_div_pow]
    _ = (x.toNat * 2 ^ s) % 2 ^ 32 + x.toNat / 2 ^ (32 - s) := by
        rw [upper, Nat.two_pow_add_eq_or_of_lt lower]

/-- Settles O5: the amount counts modulo 32, the value is the sum of two disjoint parts, and what is left of the last turn
undoes a rotation. -/
theorem rotationIsCircular : Obligations.RotationIsCircular :=
  ⟨fun x s => (rotl32_mod x s).symm, rotl32_zero, fun x _ hpos hlt => toNat_rotl32 x hpos hlt, rotl32_bijective⟩

end Sys2Proof.Machine
end

section
/-! PROOFS of the family 10_state, the invariant: what holds between commands holds at reset and is kept by every step, and BUF's
canonical form is kept by every step from every state (R26, R37, R38). -/

namespace Sys2Proof.Machine

/-! ### What holds between commands, one transition at a time -/

namespace State.Inv

variable {s : State}

/-- What holds between commands does not speak of the ports nor of the model's counter. -/
theorem withPorts (h : s.Inv) (ins : List PortSample) (f : Nat) : (withPorts ins f s).Inv :=
  ⟨h.bufWf, h.quiet, h.stable, h.readingCnt, h.readingLen, h.readingPerr, h.lovfClear, h.doneCnt, h.doneDigest⟩

theorem beginMessage (h : s.Inv) : (beginMessage s).Inv where
  bufWf := h.bufWf
  quiet := h.quiet
  stable := rfl
  readingCnt _ := Nat.zero_le _
  readingLen _ _ := rfl
  readingPerr _ := rfl
  lovfClear _ := Nat.two_pow_pos 61
  doneCnt hd := nomatch hd
  doneDigest hd := nomatch hd

/-- PERR is free outside Reading. -/
theorem setPerr (h : s.Inv) (hr : s.phase ≠ .reading) (b : Bool) : (s.setPerr b).Inv where
  bufWf := h.bufWf
  quiet := h.quiet
  stable := h.stable
  readingCnt hp := absurd hp hr
  readingLen hp := absurd hp hr
  readingPerr hp := absurd hp hr
  lovfClear := h.lovfClear
  doneCnt := h.doneCnt
  doneDigest := h.doneDigest

/-- Nothing but LOVF's meaning is asked of a state in Failed. -/
theorem setFailed (h : s.Inv) : (s.setPhase .failed).Inv where
  bufWf := h.bufWf
  quiet := h.quiet
  stable := rfl
  readingCnt hp := nomatch hp
  readingLen hp := nomatch hp
  readingPerr hp := nomatch hp
  lovfClear := h.lovfClear
  doneCnt hp := nomatch hp
  doneDigest hp := nomatch hp

end State.Inv

/-- LOVF stays clear only where it was clear and the new count is below 2^61 (R32). -/
theorem nextLovf_eq_false {b : Bool} {n : BitVec 64} : nextLovf b n = false ↔ b = false ∧ n.toNat < 2 ^ 61 := by
  rw [nextLovf, Bool.or_eq_false_iff, ← Bool.not_eq_true (lenOverflows n), lenOverflows_iff, Nat.not_le]

/-- LEN counts one byte more, if the new count does not wrap. -/
theorem len_succ {n : BitVec 64} (h : n.toNat < 2 ^ 61) : (n + 1).toNat = n.toNat + 1 := by
  rw [BitVec.toNat_add_of_lt]
  · rfl
  · exact Nat.lt_of_le_of_lt (Nat.succ_le_of_lt h) (by decide)

/-- CNT after a byte is taken: the count modulo 64, a full block being compressed at once (R272). -/
theorem absorbFull_cnt {T : Tables} {s : State} (h : s.cnt.toNat ≤ 64) : (absorbFull T s).cnt.toNat = s.cnt.toNat % 64 := by
  by_cases hc : s.cnt = 64
  · rw [absorbFull_full hc, hc]; rfl
  · have hne : s.cnt.toNat ≠ 64 := fun he => hc (BitVec.eq_of_toNat_eq he)
    rw [absorbFull_other hc]; omega

/-- CNT after PAD is the padded length, one block or two (R124). -/
theorem afterPad_cnt_eq {s : State} (h : s.cnt.toNat ≤ 63) :
    (afterPad s).cnt = if s.cnt.toNat ≤ 55 then 64 else 128 := by
  apply BitVec.eq_of_toNat_eq
  rw [afterPad_cnt, cnt_add (by omega)]
  split
  · show _ = 64; omega
  · show _ = 128; omega

theorem afterPad_cnt_cases {s : State} (h : s.cnt.toNat ≤ 63) : (afterPad s).cnt = 64 ∨ (afterPad s).cnt = 128 :=
  afterPad_cnt_eq h ▸ ite_eq_or_eq _ _ _

namespace State.Inv

variable {s : State}

theorem takeByte (h : s.Inv) (hr : s.phase = .reading) (T : Tables) (v : Byte) : (absorbFull T (afterByte v s)).Inv := by
  have hroom : s.cnt.toNat ≤ 63 := h.readingCnt hr
  have hnew : (absorbFull T (afterByte v s)).cnt.toNat = (s.cnt.toNat + 1) % 64 := by
    rw [absorbFull_cnt, afterByte_cnt, cnt_succ (by omega)]
    rw [afterByte_cnt, cnt_succ (by omega)]; omega
  have hclear : (absorbFull T (afterByte v s)).lovf = false → s.lovf = false ∧ (s.len + 1).toNat < 2 ^ 61 := by
    rw [absorbFull_lovf, afterByte_lovf]; exact nextLovf_eq_false.1
  have hphase : (absorbFull T (afterByte v s)).phase ≠ .done := by simp [hr]
  exact {
    bufWf := by simpa using Memory.wf_write v h.bufWf (show s.cnt.toNat < 128 by omega)
    quiet := by simpa using h.quiet
    stable := by simpa using h.stable
    readingCnt := fun _ => by omega
    readingLen := fun _ hl => by
      have hold := h.readingLen hr (hclear hl).1
      rw [hnew, absorbFull_len, afterByte_len, len_succ (h.lovfClear (hclear hl).1)]
      omega
    readingPerr := fun _ => by simpa using h.readingPerr hr
    lovfClear := fun hl => by simpa using (hclear hl).2
    doneCnt := fun hd => absurd hd hphase
    doneDigest := fun hd => absurd hd hphase }

/-- SERIALIZE and the last change of PHASE, from any state whose CNT is a padded length. -/
theorem serialized {u : State} (hw : u.buf.wf = true) (hq : u.issue = none) (hl : u.lovf = false → u.len.toNat < 2 ^ 61)
    (hc : u.cnt = 64 ∨ u.cnt = 128) : ((serializeChain u).setPhase .done).Inv where
  bufWf := hw
  quiet := hq
  stable := rfl
  readingCnt hp := nomatch hp
  readingLen hp := nomatch hp
  readingPerr hp := nomatch hp
  lovfClear := hl
  doneCnt _ := hc
  doneDigest _ := rfl

theorem finish (h : s.Inv) (hr : s.phase = .reading) (T : Tables) :
    ((serializeChain (compressPadded T (afterPad s))).setPhase .done).Inv := by
  have hroom : s.cnt.toNat ≤ 63 := h.readingCnt hr
  have hpadded : s.cnt.toNat + (padBytes s.cnt.toNat (bitLen s.len)).length ≤ Memory.size := by
    rw [padBytes_length]; show _ ≤ 128; omega
  apply serialized
  · rw [compressPadded_buf, afterPad_buf]; exact memWrite_wf _ h.bufWf hpadded
  · rw [compressPadded_issue, afterPad_issue]; exact h.quiet
  · rw [compressPadded_lovf, afterPad_lovf, compressPadded_len, afterPad_len]; exact h.lovfClear
  · rw [compressPadded_cnt]; exact afterPad_cnt_cases hroom

end State.Inv

/-! ### The statements -/

/-- Settles O45: every clause is about a field whose reset value is written out. -/
theorem resetKeepsTheInvariant : Obligations.ResetKeepsTheInvariant where
  bufWf := reset_buf_wf
  quiet := rfl
  stable := rfl
  readingCnt _ := Nat.zero_le _
  readingLen _ _ := rfl
  readingPerr _ := rfl
  lovfClear _ := Nat.two_pow_pos 61
  doneCnt h := nomatch h
  doneDigest h := nomatch h

/-- Settles O46: each thing a step can do has its own lemma above. -/
theorem stepKeepsTheInvariant : Obligations.StepKeepsTheInvariant := by
  intro s t h hs
  rcases step_next_cases h hs with rfl | ⟨p, rest, -, ⟨-, rfl⟩ | ⟨-, -, rfl⟩ | ⟨-, -, command⟩⟩
  · exact h
  · exact resetKeepsTheInvariant.withPorts rest _
  · exact h.withPorts rest _
  · have taken : (s.taken rest).Inv := h.withPorts rest _
    rcases command with ⟨-, rfl⟩ | ⟨hr, -, rfl⟩ | ⟨hr, v, -, rfl⟩ | ⟨hr, -, rfl⟩ | ⟨hr, -, rfl⟩
    · exact taken.beginMessage
    · exact taken.setPerr hr true
    · exact taken.takeByte hr _ v
    · exact taken.finish hr _
    · exact taken.setFailed

/-- Settles O48: a step is idling, a reset, or one instruction, and every instruction keeps the form. -/
theorem stepKeepsBufCanonical : Obligations.StepKeepsBufCanonical := by
  intro s t hw hs
  cases hi : s.issue with
  | none =>
    rcases step_cases hi with ⟨-, e⟩ | ⟨p, rest, -, ⟨-, e⟩ | ⟨-, -, e⟩ | ⟨-, -, e⟩⟩ <;> rw [e] at hs
    · injection hs with hs; exact hs ▸ hw
    · injection hs with hs; exact hs ▸ reset_buf_wf
    · exact exec_wf _ hs hw
    · injection hs with hs; exact hs ▸ hw
  | some u =>
    rcases step_issued hi with ⟨-, e⟩ | ⟨-, i, -, e⟩ | ⟨-, -, e⟩ <;> rw [e] at hs
    · injection hs with hs; exact hs ▸ reset_buf_wf
    · exact exec_wf i hs hw
    · nomatch hs

end Sys2Proof.Machine
end

section
/-! PROOFS of the family 10_state, noninterference: what the spec leaves without a value never matters, since every part of a
command takes states that agree on the rest to states that agree again (R37c, R38, D31, U3). -/

namespace Sys2Proof.Machine

/-- A slice inside the first `c` bytes of BUF is cut out of them. -/
theorem Memory.slice_eq_drop_take (m : Memory) {n k c : Nat} (h : n + k ≤ c) :
    m.slice n k = ((m.slice 0 c).take (n + k)).drop n := by
  rw [Memory.slice_take m h, Memory.slice_drop, Nat.add_sub_cancel_left]

/-- The first bytes of BUF after one byte is stored behind them. -/
theorem Memory.slice_write {m : Memory} {i : Nat} (v : Byte) (h : m.wf = true) (hi : i < Memory.size) :
    (m.write i v).slice 0 (i + 1) = m.slice 0 i ++ [v] :=
  slice_memWrite [v] h hi

/-- What PAD leaves in the valid part of BUF: the remainder and the padding behind it. -/
theorem afterPad_valid {s : State} (hw : s.buf.wf = true) (hc : s.cnt.toNat ≤ 63) :
    (afterPad s).buf.slice 0 (afterPad s).cnt.toNat =
      s.buf.slice 0 s.cnt.toNat ++ padBytes s.cnt.toNat (bitLen s.len) := by
  have hroom : s.cnt.toNat + (padBytes s.cnt.toNat (bitLen s.len)).length ≤ Memory.size := by
    rw [padBytes_length]; show _ ≤ 128; omega
  rw [← slice_memWrite _ hw hroom, afterPad_buf, afterPad_cnt, cnt_add (by omega), padBytes_length]

namespace Agree

variable {s t : State}

/-- INIT writes every item that has a value, so what was before does not matter. -/
theorem beginMessage (s t : State) : Agree (beginMessage s) (beginMessage t) :=
  ⟨rfl, rfl, rfl, rfl, rfl, fun hd => (nomatch hd), rfl, rfl⟩

theorem setPerr (h : Agree s t) (b : Bool) : Agree (s.setPerr b) (t.setPerr b) :=
  ⟨h.chain, h.phase, h.cnt, h.valid, h.len, h.digest, rfl, h.lovf⟩

theorem setFailed (h : Agree s t) : Agree (s.setPhase .failed) (t.setPhase .failed) :=
  ⟨h.chain, rfl, h.cnt, h.valid, h.len, fun hd => (nomatch hd), h.perr, h.lovf⟩

theorem afterByte (h : Agree s t) (v : Byte) (hs : s.buf.wf = true) (ht : t.buf.wf = true) (hc : s.cnt.toNat ≤ 63) :
    Agree (afterByte v s) (afterByte v t) where
  chain := h.chain
  phase := h.phase
  cnt := congrArg (· + 1) h.cnt
  valid := by
    have hroom : s.cnt.toNat < Memory.size := Nat.lt_of_le_of_lt hc (by decide)
    have hsame : s.cnt.toNat = t.cnt.toNat := congrArg _ h.cnt
    simp only [afterByte_buf, afterByte_cnt]
    rw [cnt_succ (by omega), cnt_succ (by omega), Memory.slice_write v hs hroom, Memory.slice_write v ht (hsame ▸ hroom), h.valid]
  len := congrArg (· + 1) h.len
  digest := h.digest
  perr := h.perr
  lovf := congrArg₂ nextLovf h.lovf (congrArg (· + 1) h.len)

/-- A block inside the valid part of BUF is the same in both. -/
theorem block (h : Agree s t) {n : Nat} (hn : n + 64 ≤ s.cnt.toNat) : s.buf.slice n 64 = t.buf.slice n 64 := by
  rw [Memory.slice_eq_drop_take s.buf hn, Memory.slice_eq_drop_take t.buf (h.cnt ▸ hn), h.valid]

/-- A COMPRESS reads the State words and one block; the working variables and W it leaves are not compared. -/
theorem compressBlock (h : Agree s t) (T : Tables) {n : Nat} (hn : n + 64 ≤ s.cnt.toNat) :
    Agree (compressBlock T n s) (compressBlock T n t) where
  chain := by rw [compressBlock_chain, compressBlock_chain, h.block hn, h.chain]
  phase := by simpa using h.phase
  cnt := by simpa using h.cnt
  valid := by simpa using h.valid
  len := by simpa using h.len
  digest := by simpa using h.digest
  perr := by simpa using h.perr
  lovf := by simpa using h.lovf

/-- After `CNT <- 0` no byte of BUF is valid. -/
theorem setCnt_zero (h : Agree s t) : Agree (s.setCnt 0) (t.setCnt 0) :=
  ⟨h.chain, h.phase, rfl, rfl, h.len, h.digest, h.perr, h.lovf⟩

theorem absorbFull (h : Agree s t) (T : Tables) : Agree (absorbFull T s) (absorbFull T t) := by
  by_cases hc : s.cnt = 64
  · rw [absorbFull_full hc, absorbFull_full (h.cnt ▸ hc)]
    exact (h.compressBlock T (hc ▸ Nat.le_refl 64)).setCnt_zero
  · rw [absorbFull_other hc, absorbFull_other (h.cnt ▸ hc)]
    exact h

theorem afterPad (h : Agree s t) (hs : s.buf.wf = true) (ht : t.buf.wf = true) (hc : s.cnt.toNat ≤ 63) :
    Agree (afterPad s) (afterPad t) where
  chain := h.chain
  phase := rfl
  cnt := by simp only [afterPad_cnt, h.cnt]
  valid := by rw [afterPad_valid hs hc, afterPad_valid ht (h.cnt ▸ hc), h.valid, h.cnt, h.len]
  len := h.len
  digest hd := nomatch hd
  perr := h.perr
  lovf := h.lovf

theorem compressPadded (h : Agree s t) (T : Tables) (hc : s.cnt = 64 ∨ s.cnt = 128) :
    Agree (compressPadded T s) (compressPadded T t) := by
  rcases hc with hc | hc
  · have hone : s.cnt ≠ 128 := by rw [hc]; decide
    rw [compressPadded_one hone, compressPadded_one (h.cnt ▸ hone)]
    exact h.compressBlock T (by rw [hc]; decide)
  · rw [compressPadded_two hc, compressPadded_two (h.cnt ▸ hc)]
    exact (h.compressBlock T (by rw [hc]; decide)).compressBlock T (by rw [compressBlock_cnt, hc]; decide)

/-- The digest is a function of the State words alone. -/
theorem serialized (h : Agree s t) : Agree ((serializeChain s).setPhase .done) ((serializeChain t).setPhase .done) :=
  ⟨h.chain, rfl, h.cnt, h.valid, h.len, fun _ => congrArg serializeFn h.chain, h.perr, h.lovf⟩

/-- States that agree look the same. -/
theorem observe (h : Agree s t) : s.observe = t.observe := by
  by_cases hd : s.phase = .done
  · simp [State.observe, State.digestValid, ← h.phase, h.perr, h.lovf, hd, h.digest hd]
  · simp [State.observe, State.digestValid, ← h.phase, h.perr, h.lovf, hd]

end Agree

/-- One command from states that agree: INIT begins anew; out of Reading PERR is set in both; in Reading each of the three
commands does its parts in both. -/
theorem exec_agree {s t : State} (hs : s.Inv) (ht : t.Inv) (h : Agree s t) {i : Instr}
    (hi : i = .init ∨ (∃ v, i = .data v) ∨ i = .endMsg ∨ i = .fail) :
    ∃ s' t', exec i s = .next s' ∧ exec i t = .next t' ∧ Agree s' t' := by
  rcases hi with rfl | late
  · exact ⟨_, _, exec_init s, exec_init t, .beginMessage s t⟩
  · by_cases hr : s.phase = .reading
    · have hr' : t.phase = .reading := h.phase ▸ hr
      have hc : s.cnt.toNat ≤ 63 := hs.readingCnt hr
      have hc' : t.cnt.toNat ≤ 63 := ht.readingCnt hr'
      rcases late with ⟨v, rfl⟩ | rfl | rfl
      · exact ⟨_, _, exec_data hr (by omega), exec_data hr' (by omega), (h.afterByte v hs.bufWf ht.bufWf hc).absorbFull _⟩
      · exact ⟨_, _, exec_endMsg hr (by omega), exec_endMsg hr' (by omega),
          ((h.afterPad hs.bufWf ht.bufWf hc).compressPadded _ (afterPad_cnt_cases hc)).serialized⟩
      · exact ⟨_, _, exec_fail hr, exec_fail hr', h.setFailed⟩
    · exact ⟨_, _, exec_late late hr, exec_late late (h.phase ▸ hr), h.setPerr true⟩

/-- Settles O53: the states after a command agree again, and states that agree look the same. -/
theorem unspecifiedStateNeverMatters : Obligations.UnspecifiedStateNeverMatters := by
  intro s t v hs ht h i hi
  have command : i = .init ∨ (∃ v, i = .data v) ∨ i = .endMsg ∨ i = .fail := by
    simp only [List.mem_cons, List.not_mem_nil, or_false] at hi
    exact hi.imp_right (Or.imp_left fun e => ⟨v, e⟩)
  obtain ⟨s', t', es, et, after⟩ := exec_agree hs ht h command
  exact ⟨s', t', es, et, after, after.observe⟩

end Sys2Proof.Machine
end

section
/-! PROOFS of the family 10_state, the ports: STATUS, reset, the accepted command, and what a step between commands can change
(R20, R31 to R34, R38). -/

namespace Sys2Proof.Machine

/-! ### STATUS -/

/-- The fields of STATUS, for any 3-bit code. -/
theorem status_fields : ∀ (code : BitVec 3) (perr lovf : Bool),
    let status : Byte := (0 : BitVec 3) ++ BitVec.ofBool lovf ++ BitVec.ofBool perr ++ code
    status.extractLsb' 0 3 = code ∧ status.getLsbD 3 = perr ∧ status.getLsbD 4 = lovf ∧ status.extractLsb' 5 3 = 0 := by
  decide

/-- Between commands PHASE is one of three. -/
theorem State.Inv.phase_cases {s : State} (h : s.Inv) : s.phase = .reading ∨ s.phase = .done ∨ s.phase = .failed := by
  have hp := h.stable
  cases hc : s.phase <;> simp_all [Phase.stable]

/-- Settles O39: the fields for every code, and the ten values by PHASE, with PERR clear in Reading. -/
theorem statusWordLayoutAndVisibleValues : Obligations.StatusWordLayoutAndVisibleValues := by
  refine ⟨fun s => ?_, rfl, fun s h => ?_⟩
  · obtain ⟨hphase, hperr, hlovf, hzero⟩ := status_fields s.phase.code s.perr s.lovf
    exact ⟨hphase, hperr, hlovf, hzero, decide_eq_true_iff, decide_eq_true_iff⟩
  · rcases h.phase_cases with hp | hp | hp
    · rw [State.status, hp, h.readingPerr hp]
      cases s.lovf <;> decide
    · rw [State.status, hp]
      cases s.perr <;> cases s.lovf <;> decide
    · rw [State.status, hp]
      cases s.perr <;> cases s.lovf <;> decide

/-! ### Reset and the accepted command -/

/-- A sample with `rst` is a reset, whether an operation is issued or not (R307). -/
theorem step_rst {s : State} {p : PortSample} {rest : List PortSample} (hi : s.inputs = p :: rest) (hr : p.rst = true) :
    step s = .next (resetNow s rest) := by
  cases hu : s.issue <;> simp [step, fetch, hu, hi, takeSample, State.rstAsserted, hr]

/-- On every item the spec gives a value, a reset does what INIT does (R38). -/
theorem agree_resetNow (s : State) (rest : List PortSample) : Agree (resetNow s rest) (beginMessage s) :=
  ⟨rfl, rfl, rfl, rfl, rfl, fun hd => (nomatch hd), rfl, rfl⟩

/-- Settles O40: a reset is the reset state but for the ports and the model's counter, and so agrees with what INIT leaves. -/
theorem resetStateAndItsEffect : Obligations.ResetStateAndItsEffect := by
  refine ⟨fun t ht => ?_, fun s p rest hi hr => ?_⟩
  · obtain ⟨ins, f, rfl⟩ : ∃ ins f, t = withPorts ins f State.reset := by
      rcases ht with rfl | ⟨s, p, rest, hi, hr, e⟩
      · exact ⟨_, _, rfl⟩
      · rw [step_rst hi hr] at e
        injection e with e
        exact ⟨rest, s.freeIndex + 1, e.symm⟩
    exact ⟨rfl, rfl, rfl, rfl, rfl, rfl, rfl, rfl, rfl, (by decide : statusWord .reading false false = 0x00), rfl⟩
  · exact ⟨_, _, step_rst hi hr, exec_init s, agree_resetNow s rest, rfl⟩

/-- Settles O41: of what a step can do with no operation issued, one case has `rst` at 0 and `cmd_valid` at 1. -/
theorem stepRunsTheAcceptedCommand : Obligations.StepRunsTheAcceptedCommand := by
  intro s p rest hready hi hr hv
  have quiet : s.issue = none := Option.isNone_iff_eq_none.1 hready
  rcases step_cases quiet with ⟨hnil, -⟩ | ⟨q, rest', hi', cases⟩
  · rw [hi] at hnil; nomatch hnil
  · obtain ⟨rfl, rfl⟩ := List.cons.inj (hi.symm.trans hi')
    simpa [hr, hv] using cases

/-! ### What a step between commands can change -/

/-- Everything a step can do where what holds between commands holds, in the terms of the statements below: start over; only move
the ports; set PERR for a late command; or take DATA, END or FAIL in Reading. -/
theorem step_next_startsOver_or {s t : State} (h : s.Inv) (hs : step s = .next t) :
    (StartsOver s ∧ t.perr = false ∧ t.lovf = false) ∨ (∃ ins f, t = withPorts ins f s) ∨
    ∃ p rest, s.inputs = p :: rest ∧ p.rst = false ∧ p.cmdValid = true ∧
      ((s.phase ≠ .reading ∧ decodeCmd p.cmd ≠ .init ∧ t = (s.taken rest).setPerr true) ∨
       (s.phase = .reading ∧ ∃ v, decodeCmd p.cmd = .data v ∧ t = absorbFull Config.tables (afterByte v (s.taken rest))) ∨
       (s.phase = .reading ∧ decodeCmd p.cmd = .endMsg ∧
          t = (serializeChain (compressPadded Config.tables (afterPad (s.taken rest)))).setPhase .done) ∨
       (s.phase = .reading ∧ decodeCmd p.cmd = .fail ∧ t = (s.taken rest).setPhase .failed)) := by
  rcases step_next_cases h hs with rfl | ⟨p, rest, hi, ⟨hr, rfl⟩ | ⟨-, -, rfl⟩ | ⟨hr, hv, ⟨hc, rfl⟩ | command⟩⟩
  · exact .inr (.inl ⟨_, _, rfl⟩)
  · exact .inl ⟨⟨p, rest, hi, .inl hr⟩, rfl, rfl⟩
  · exact .inr (.inl ⟨rest, _, rfl⟩)
  · exact .inl ⟨⟨p, rest, hi, .inr ⟨hv, hc⟩⟩, rfl, rfl⟩
  · exact .inr (.inr ⟨p, rest, hi, hr, hv, command⟩)

/-- The flags after a step: both cleared by starting over; PERR set by a late command; LOVF renewed by DATA; else both kept. -/
theorem step_flags {s t : State} (h : s.Inv) (hs : step s = .next t) :
    (StartsOver s ∧ t.perr = false ∧ t.lovf = false) ∨ (t.perr = s.perr ∧ t.lovf = s.lovf) ∨
    ∃ p rest, s.inputs = p :: rest ∧ p.rst = false ∧ p.cmdValid = true ∧
      ((s.phase ≠ .reading ∧ decodeCmd p.cmd ≠ .init ∧ t.perr = true ∧ t.lovf = s.lovf) ∨
       (s.phase = .reading ∧ (∃ v, decodeCmd p.cmd = .data v) ∧ t.perr = s.perr ∧ t.lovf = nextLovf s.lovf t.len)) := by
  rcases step_next_startsOver_or h hs with startsOver | ⟨ins, f, rfl⟩ | ⟨p, rest, hi, hr, hv, command⟩
  · exact .inl startsOver
  · exact .inr (.inl ⟨rfl, rfl⟩)
  · rcases command with ⟨hp, hc, rfl⟩ | ⟨hp, v, hc, rfl⟩ | ⟨-, -, rfl⟩ | ⟨-, -, rfl⟩
    · exact .inr (.inr ⟨p, rest, hi, hr, hv, .inl ⟨hp, hc, rfl, rfl⟩⟩)
    · exact .inr (.inr ⟨p, rest, hi, hr, hv, .inr ⟨hp, ⟨v, hc⟩, absorbFull_perr _ _, by
        rw [absorbFull_lovf, absorbFull_len, afterByte_lovf, afterByte_len]; rfl⟩⟩)
    · exact .inr (.inl (by simp [serializeChain, State.taken]))
    · exact .inr (.inl ⟨rfl, rfl⟩)

/-- Settles O50: what a step does to the flags, read clause by clause. -/
theorem flagsAreStickyAndSetOnlyByTheirCauses : Obligations.FlagsAreStickyAndSetOnlyByTheirCauses := by
  intro s t h hs
  rcases step_flags h hs with ⟨startsOver, hperr, hlovf⟩ | ⟨hperr, hlovf⟩ | ⟨p, rest, hi, hr, hv, late | data⟩
  · simp [startsOver, hperr, hlovf]
  · simp +contextual [hperr, hlovf]
  · obtain ⟨hp, hc, hperr, hlovf⟩ := late
    have startsOver : s.phase = .done ∨ s.phase = .failed := h.phase_cases.resolve_left hp
    exact ⟨fun _ => .inl hperr, fun hl => .inl (hlovf.trans hl), fun _ _ => ⟨startsOver, p, rest, hi, hr, hv, hc⟩,
      fun hl hl' => absurd (hlovf.symm.trans hl') (by simp [hl])⟩
  · obtain ⟨hp, ⟨v, hc⟩, hperr, hlovf⟩ := data
    refine ⟨fun he => .inl (hperr.trans he), fun hl => .inl (by rw [hlovf, hl]; rfl),
      fun he he' => absurd (hperr.symm.trans he') (by simp [he]), fun hl hl' => ⟨hp, ?_, p, rest, v, hi, hr, hv, hc⟩⟩
    rw [hlovf, hl] at hl'
    exact (lenOverflows_iff _).1 hl'

/-- Settles O51: in Done a step that does not start over moves the ports or sets PERR, and the digest port shows the stored
bytes. -/
theorem digestIsImmutableInDone : Obligations.DigestIsImmutableInDone := by
  intro s t h hd hs
  have hport : ∀ u : State, u.phase = .done → u.digest = s.digest → u.digestPort = s.digestPort := fun u hu he => by
    simp [State.digestPort, State.digestOut, State.digestValid, hu, hd, he]
  rcases step_next_startsOver_or h hs with ⟨startsOver, -⟩ | ⟨ins, f, rfl⟩ | ⟨p, rest, -, -, -, command⟩
  · exact .inr startsOver
  · exact .inl ⟨rfl, hport _ hd rfl, hd⟩
  · rcases command with ⟨-, -, rfl⟩ | ⟨hr, -⟩ | ⟨hr, -⟩ | ⟨hr, -⟩
    · exact .inl ⟨rfl, hport _ hd rfl, hd⟩
    all_goals exact absurd (hd.symm.trans hr) (by decide)

/-- Settles O52: DATA compresses a block only when it stores the 64th byte. -/
theorem stateWordsChangeOnlyByInitResetAndCompress : Obligations.StateWordsChangeOnlyByInitResetAndCompress := by
  intro s t h hs hne
  rcases step_next_startsOver_or h hs with ⟨startsOver, -⟩ | ⟨ins, f, rfl⟩ | ⟨p, rest, hi, hr, hv, command⟩
  · exact .inl startsOver
  · exact absurd rfl hne
  · rcases command with ⟨-, -, rfl⟩ | ⟨hp, v, hc, rfl⟩ | ⟨hp, hc, rfl⟩ | ⟨-, -, rfl⟩
    · exact absurd rfl hne
    · refine .inr ⟨hp, p, rest, hi, hr, hv, .inr ⟨?_, v, hc⟩⟩
      by_contra h63
      refine hne ?_
      rw [absorbFull_other]
      · rfl
      · show s.cnt + 1 ≠ 64
        bv_omega
    · exact .inr ⟨hp, p, rest, hi, hr, hv, .inl hc⟩
    · exact absurd rfl hne

end Sys2Proof.Machine
end

section
/-! PROOFS of the family 10_state, the whole computation: the bytes of a message as the State words and BUF hold them while they are
taken, the digest END makes of them, and the same at the ports, whatever the delays (R34, R76, R270, R278). -/

namespace Sys2Proof.Machine

/-! ### A message, command by command -/

/-- The blocks a chain value is made of lie in the front of the message. -/
theorem chainAfter_append (T : Tables) (m n : List Byte) {k : Nat} (h : 64 * k ≤ m.length) :
    chainAfter T (m ++ n) k = chainAfter T m k := by
  induction k with
  | zero => rfl
  | succ k ih =>
    have block : ((m ++ n).drop (64 * k)).take 64 = (m.drop (64 * k)).take 64 := by
      rw [List.drop_append_of_le_length (by omega), List.take_append_of_le_length (by rw [List.length_drop]; omega)]
    rw [chainAfter, chainAfter, block, ih (by omega)]

/-- An engine that has taken the bytes `m` since INIT: whole blocks in the State words, the rest in BUF. -/
structure Absorbed (m : List Byte) (s : State) : Prop where
  phase : s.phase = .reading
  bufWf : s.buf.wf = true
  chain : s.chain = chainAfter Config.tables m (m.length / 64)
  cnt : s.cnt.toNat = m.length % 64
  valid : s.buf.slice 0 s.cnt.toNat = m.drop (64 * (m.length / 64))
  len : s.len.toNat = m.length
  perr : s.perr = false
  lovf : s.lovf = false

/-- An engine that has finished the message `m`. -/
structure Finished (m : List Byte) (s : State) : Prop where
  phase : s.phase = .done
  chain : s.chain = finalQuad Config.tables m
  digest : s.digest = digestFn Config.tables m
  len : s.len.toNat = m.length
  perr : s.perr = false
  lovf : s.lovf = false

/-- SERIALIZE and the last change of PHASE: the digest is the State words' (R290). -/
theorem Finished.serialized {m : List Byte} {u : State} (hchain : u.chain = finalQuad Config.tables m)
    (hlen : u.len.toNat = m.length) (hperr : u.perr = false) (hlovf : u.lovf = false) :
    Finished m ((serializeChain u).setPhase .done) :=
  ⟨rfl, hchain, congrArg serializeFn hchain, hlen, hperr, hlovf⟩

theorem beginMessage_absorbed {s : State} (hw : s.buf.wf = true) : Absorbed [] (beginMessage s) :=
  ⟨rfl, hw, rfl, rfl, rfl, rfl, rfl, rfl⟩

namespace Absorbed

variable {m : List Byte} {s : State}

/-- CNT after one more byte is stored. -/
theorem stored_cnt (h : Absorbed m s) (v : Byte) : (afterByte v s).cnt.toNat = m.length % 64 + 1 := by
  rw [afterByte_cnt, cnt_succ, h.cnt]; rw [h.cnt]; omega

/-- CNT is 64 exactly when the byte completes a block. -/
theorem stored_cnt_eq_iff (h : Absorbed m s) (v : Byte) : (afterByte v s).cnt = 64 ↔ m.length % 64 = 63 := by
  rw [← BitVec.toNat_inj, h.stored_cnt]; exact Nat.succ_inj

theorem stored_wf (h : Absorbed m s) (v : Byte) : (afterByte v s).buf.wf = true :=
  Memory.wf_write v h.bufWf (show s.cnt.toNat < 128 by rw [h.cnt]; omega)

/-- BUF's valid part after one more byte is stored: what the message has behind its whole blocks, that byte included. -/
theorem stored_valid (h : Absorbed m s) (v : Byte) :
    (afterByte v s).buf.slice 0 (m.length % 64 + 1) = (m ++ [v]).drop (64 * (m.length / 64)) := by
  rw [List.drop_append_of_le_length (Nat.mul_div_le m.length 64), ← h.valid, afterByte_buf, ← h.cnt,
    Memory.slice_write v h.bufWf (show s.cnt.toNat < 128 by rw [h.cnt]; omega)]

/-- The State words after DATA: a completed block is compressed into them. -/
theorem takeByte_chain (h : Absorbed m s) (v : Byte) :
    (absorbFull Config.tables (afterByte v s)).chain = chainAfter Config.tables (m ++ [v]) ((m ++ [v]).length / 64) := by
  have hlength : (m ++ [v]).length = m.length + 1 := List.length_append
  have hbefore := chainAfter_append Config.tables m [v] (Nat.mul_div_le m.length 64)
  by_cases hfull : m.length % 64 = 63
  · have hblock : ((m ++ [v]).drop (64 * (m.length / 64))).take 64 = (afterByte v s).buf.slice 0 64 := by
      rw [← h.stored_valid, hfull]; exact List.take_of_length_le (Memory.slice_length _ _ _).le
    rw [absorbFull_full ((h.stored_cnt_eq_iff v).2 hfull), State.setCnt_chain, compressBlock_chain, afterByte_chain, h.chain,
      show (m ++ [v]).length / 64 = m.length / 64 + 1 by omega, chainAfter, hblock, hbefore]
  · rw [absorbFull_other (mt (h.stored_cnt_eq_iff v).1 hfull), afterByte_chain, h.chain,
      show (m ++ [v]).length / 64 = m.length / 64 by omega, hbefore]

/-- CNT after DATA, a completed block counting no more. -/
theorem takeByte_cnt (h : Absorbed m s) (v : Byte) :
    (absorbFull Config.tables (afterByte v s)).cnt.toNat = (m.length % 64 + 1) % 64 := by
  rw [absorbFull_cnt (by rw [h.stored_cnt]; omega), h.stored_cnt]

/-- DATA: the 64th byte of a block moves the block into the State words, any other byte stays in BUF. -/
theorem takeByte (h : Absorbed m s) (v : Byte) (hm : (m ++ [v]).length < 2 ^ 61) :
    Absorbed (m ++ [v]) (absorbFull Config.tables (afterByte v s)) := by
  have hlength : (m ++ [v]).length = m.length + 1 := List.length_append
  have hlen : (s.len + 1).toNat = m.length + 1 := by
    rw [len_succ, h.len]; rw [h.len]; omega
  exact {
    phase := by rw [absorbFull_phase, afterByte_phase, h.phase]
    bufWf := by rw [absorbFull_buf]; exact h.stored_wf v
    chain := h.takeByte_chain v
    cnt := by rw [h.takeByte_cnt]; omega
    valid := by
      rw [h.takeByte_cnt, absorbFull_buf]
      by_cases hfull : m.length % 64 = 63
      · rw [hfull, List.drop_eq_nil_of_le (by omega)]; rfl
      · rw [Nat.mod_eq_of_lt (by omega), h.stored_valid, show (m ++ [v]).length / 64 = m.length / 64 by omega]
    len := by rw [absorbFull_len, afterByte_len, hlen, hlength]
    perr := by rw [absorbFull_perr, afterByte_perr, h.perr]
    lovf := by
      rw [absorbFull_lovf, afterByte_lovf]
      exact nextLovf_eq_false.2 ⟨h.lovf, by omega⟩ }

/-- BUF's valid part after PAD is the padded tail of the message (R278). -/
theorem afterPad_valid (h : Absorbed m s) : (afterPad s).buf.slice 0 (afterPad s).cnt.toNat = paddedTail m := by
  have hbits : bitLen s.len = BitVec.ofNat 64 (8 * m.length) := by
    rw [bitLen, ← h.len, Nat.mul_comm, BitVec.ofNat_mul, BitVec.ofNat_toNat, BitVec.setWidth_eq]; rfl
  have hrest : (m.drop (64 * (m.length / 64))).length = m.length % 64 := by rw [List.length_drop]; omega
  rw [Machine.afterPad_valid h.bufWf (by rw [h.cnt]; omega), h.valid, hbits, paddedTail, padFn_eq, hrest, h.cnt]

/-- The State words END leaves: the tail is one block where at most 55 bytes are over, else two. -/
theorem compressPadded_chain (h : Absorbed m s) :
    (compressPadded Config.tables (afterPad s)).chain = finalQuad Config.tables m := by
  have hcnt := afterPad_cnt_eq (s := s) (by rw [h.cnt]; omega)
  rw [h.cnt] at hcnt
  have hfirst : (afterPad s).buf.slice 0 64 = (paddedTail m).take 64 := by
    rw [← h.afterPad_valid, Memory.slice_take]
    rw [hcnt]; split <;> decide
  rw [Machine.compressPadded_chain, hfirst, afterPad_chain, h.chain, finalQuad]
  by_cases hone : m.length % 64 ≤ 55
  · rw [if_pos hone] at hcnt
    rw [hcnt, if_neg (by decide), if_pos hone]
  · rw [if_neg hone] at hcnt
    have hsecond : (afterPad s).buf.slice 64 64 = ((paddedTail m).drop 64).take 64 := by
      rw [← h.afterPad_valid, Memory.slice_drop, hcnt]
      exact (List.take_of_length_le (Memory.slice_length _ _ _).le).symm
    rw [hcnt, if_pos rfl, if_neg hone, hsecond]

theorem finish (h : Absorbed m s) :
    Finished m ((serializeChain (compressPadded Config.tables (afterPad s))).setPhase .done) := by
  apply Finished.serialized h.compressPadded_chain
  · rw [compressPadded_len, afterPad_len, h.len]
  · rw [compressPadded_perr, afterPad_perr, h.perr]
  · rw [compressPadded_lovf, afterPad_lovf, h.lovf]

/-- One DATA a byte. -/
theorem runInstrs_data (vs : List Byte) {m : List Byte} {s : State} (h : Absorbed m s) (hm : (m ++ vs).length < 2 ^ 61) :
    ∃ t, runInstrs (vs.map .data) s = .next t ∧ Absorbed (m ++ vs) t := by
  induction vs generalizing m s with
  | nil => exact ⟨s, rfl, by rwa [List.append_nil]⟩
  | cons v vs ih =>
    rw [List.append_cons] at hm ⊢
    have hfirst : (m ++ [v]).length < 2 ^ 61 := Nat.lt_of_le_of_lt (by simp) hm
    obtain ⟨t, ht, hres⟩ := ih (h.takeByte v hfirst) hm
    refine ⟨t, ?_, hres⟩
    rw [List.map_cons, runInstrs, exec_data h.phase (by rw [h.cnt]; omega), andThen_next, ht]

end Absorbed

/-- INIT, the bytes of a message as DATA, END, from any state (R278). -/
theorem runInstrs_message (m : List Byte) {s : State} (hw : s.buf.wf = true) (hm : m.length < 2 ^ 61) :
    ∃ t, runInstrs ([.init] ++ m.map .data ++ [.endMsg]) s = .next t ∧ Finished m t := by
  obtain ⟨u, hu, absorbed⟩ := (beginMessage_absorbed hw).runInstrs_data m hm
  refine ⟨_, ?_, absorbed.finish⟩
  rw [List.nil_append] at absorbed
  rw [List.append_assoc, runInstrs_append, runInstrs, exec_init, andThen_next, runInstrs, andThen_next, runInstrs_append, hu,
    andThen_next, runInstrs, exec_endMsg absorbed.phase (by rw [absorbed.cnt]; omega), andThen_next, runInstrs]

/-! ### The samples of the ports, one a step -/

theorem acceptedCommands_quiet {p : PortSample} (ps : List PortSample) (h : p.cmdValid = false) :
    acceptedCommands (p :: ps) = acceptedCommands ps := by
  rw [acceptedCommands, List.filter_cons_of_neg (by simp [h])]; rfl

theorem acceptedCommands_command {p : PortSample} (ps : List PortSample) (h : p.cmdValid = true) :
    acceptedCommands (p :: ps) = decodeCmd p.cmd :: acceptedCommands ps := by
  rw [acceptedCommands, List.filter_cons_of_pos h]; rfl

/-- The last change of the ports stands. -/
theorem mapNext_withPorts (ins ins' : List PortSample) (f f' : Nat) (r : Result) :
    mapNext (withPorts ins f) (mapNext (withPorts ins' f') r) = mapNext (withPorts ins f) r := by
  cases r <;> rfl

/-- No row of accepted commands issues an operation. -/
theorem runInstrs_issue (ps : List PortSample) {s t : State} (h : runInstrs (acceptedCommands ps) s = .next t) :
    t.issue = s.issue := by
  induction ps generalizing s with
  | nil => injection h with h; rw [h]
  | cons p ps ih =>
    cases hv : p.cmdValid
    · exact ih (acceptedCommands_quiet ps hv ▸ h)
    · rw [acceptedCommands_command ps hv] at h
      obtain ⟨u, hu, ht⟩ := andThen_eq_next.1 h
      exact (ih ht).trans (exec_issue p.cmd hu)

/-- One step takes one sample: the command in it, if there is one, is carried out. -/
theorem step_sample {s : State} {p : PortSample} {ps : List PortSample} (hi : s.inputs = p :: ps) (hq : s.issue = none)
    (hr : p.rst = false) :
    step s = if p.cmdValid then mapNext (withPorts ps (s.freeIndex + 1)) (exec (decodeCmd p.cmd) s)
      else .next (withPorts ps s.freeIndex s) := by
  cases hv : p.cmdValid
  · simp [step, fetch, hq, hi, takeSample, hr, hv, withPorts]
  · rw [if_pos rfl, ← exec_withPorts]
    simp [step, fetch, hq, hi, takeSample, hr, hv, withPorts]

/-- Taking samples without `rst`, one a step, is carrying out the commands accepted from them, the ports empty at the end and the
model's counter moved on once a command (R72, R76). -/
theorem steps_samples (ps : List PortSample) {s : State} (hi : s.inputs = ps) (hq : s.issue = none)
    (hr : ∀ p ∈ ps, p.rst = false) :
    steps ps.length s = mapNext (withPorts [] (s.freeIndex + (acceptedCommands ps).length)) (runInstrs (acceptedCommands ps) s) := by
  induction ps generalizing s with
  | nil =>
    show Host.Outcome.next s = .next (withPorts [] s.freeIndex s)
    rw [withPorts, ← hi]
  | cons p ps ih =>
    have hrest : ∀ q ∈ ps, q.rst = false := fun q hq => hr q (List.mem_cons_of_mem p hq)
    rw [List.length_cons, steps, step_sample hi hq (hr p List.mem_cons_self)]
    cases hv : p.cmdValid
    · rw [acceptedCommands_quiet ps hv, if_neg Bool.false_ne_true, andThen_next, ih (s := withPorts ps s.freeIndex s) rfl hq hrest, runInstrs_withPorts,
        mapNext_withPorts]
      rfl
    · rw [acceptedCommands_command ps hv, if_pos rfl, runInstrs, List.length_cons]
      cases he : exec (decodeCmd p.cmd) s with
      | next u =>
        rw [andThen_next, mapNext, andThen_next, ih (s := withPorts ps (s.freeIndex + 1) u) rfl ((exec_issue p.cmd he).trans hq) hrest,
          runInstrs_withPorts, mapNext_withPorts, Nat.add_comm (acceptedCommands ps).length, ← Nat.add_assoc]
        rfl
      | fault _ => rfl
      | refused _ => rfl

/-- What a host sees of an engine that has finished a message, whatever its ports and its counter hold. -/
theorem Finished.ports {m : List Byte} {u : State} (h : Finished m u) (ins : List PortSample) (f : Nat) :
    (withPorts ins f u).status = 0x04 ∧ (withPorts ins f u).digestPort = packDigest (digestFn Config.tables m) ∧
    (withPorts ins f u).observe = ⟨.done, false, false, some (digestFn Config.tables m)⟩ := by
  have hstatus : u.status = 0x04 := by rw [State.status, h.phase, h.perr, h.lovf]; rfl
  refine ⟨hstatus, ?_, ?_⟩
  · simp [State.digestPort, State.digestOut, State.digestValid, withPorts, h.phase, h.digest]
  · simp [State.observe, State.digestValid, withPorts, h.phase, h.digest, h.perr, h.lovf]

/-- Settles O56: the steps are the message's commands, and these leave its digest. -/
theorem portsDeliverTheDigest : Obligations.PortsDeliverTheDigest := by
  intro m s hw hm hq hr hc
  obtain ⟨u, hu, finished⟩ := runInstrs_message m hw hm
  rw [← hc] at hu
  have hready : u.issue = none := (runInstrs_issue s.inputs hu).trans hq
  obtain ⟨hstatus, hport, hobserve⟩ := finished.ports [] (s.freeIndex + (acceptedCommands s.inputs).length)
  refine ⟨_, (steps_samples s.inputs rfl hq hr).trans (congrArg _ hu), rfl, hstatus, ?_, hport, hobserve⟩
  exact Option.isNone_iff_eq_none.2 hready

end Sys2Proof.Machine
end

section
/-! PROOFS of the family 20_memory: the bytes of DIGEST, the engines of a system, the samples and the reads a message comes in
(R63, R72, R75, R76). -/

namespace Sys2Proof.Machine

/-! ### The Serializer -/

/-- Byte 4m + k of a serialization is byte k of the m-th word (R63). -/
theorem digestBytes_getElem? (A B C D : Word) (m k : Fin 4) :
    (digestBytes A B C D).toList[4 * m.val + k.val]? = some (wordByte ((#v[A, B, C, D] : Vector Word 4).get m) k.val) := by
  fin_cases m <;> fin_cases k <;> rfl

/-- Settles O29: SERIALIZE stores the serialization of A, B, C, D and nothing else. -/
theorem serializeWritesLowByteFirst : Obligations.SerializeWritesLowByteFirst :=
  ⟨⟨rfl, uopWord_label 0x49 0⟩, fun s => ⟨serializeChain s, rfl, rfl, digestBytes_getElem? s.A s.B s.C s.D⟩⟩

/-! ### Several engines -/

/-- Everything a step of engine `k` can do when it answers: the number names no engine and nothing changes, or the engine's own step
answers and its state takes the place of the old one. -/
theorem System.stepEngine_next_cases {sys sys' : System} {k : Nat} (h : sys.stepEngine k = .next sys') :
    (sys[k]? = none ∧ sys' = sys) ∨ ∃ s t, sys[k]? = some s ∧ step s = .next t ∧ sys' = sys.set k t := by
  rw [System.stepEngine] at h
  cases hk : sys[k]? with
  | none =>
    rw [hk] at h
    injection h with h
    exact .inl ⟨rfl, h.symm⟩
  | some s =>
    simp only [hk] at h
    cases hs : step s with
    | next t =>
      rw [hs] at h
      injection h with h
      exact .inr ⟨s, t, rfl, hs, h.symm⟩
    | fault f => rw [hs] at h; cases h
    | refused q => rw [hs] at h; cases h

/-- Settles O54: the one change to the list of engines is the `set` of the engine that stepped. -/
theorem enginesAreIndependent : Obligations.EnginesAreIndependent := by
  intro sys sys' k h
  rcases System.stepEngine_next_cases h with ⟨hk, rfl⟩ | ⟨s, t, hk, hs, rfl⟩
  · refine ⟨rfl, fun _ _ => rfl, fun s hsome => ?_⟩
    rw [hk] at hsome
    cases hsome
  · refine ⟨List.length_set, fun j hj => List.getElem?_set_ne hj.symm, fun s' hsome => ?_⟩
    obtain rfl : s = s' := Option.some.inj (hk.symm.trans hsome)
    exact ⟨t, hs, List.getElem?_set_self (List.getElem?_eq_some_iff.1 hk).1⟩

/-! ### The samples of the ports and the accepted commands -/

/-- A changed result is a next state exactly when the result is one, changed. -/
theorem mapNext_eq_next {g : State → State} {r : Result} {t : State} : mapNext g r = .next t ↔ ∃ u, r = .next u ∧ t = g u := by
  cases r <;> simp [mapNext, eq_comm]

/-- Settles O57: `steps_samples`, read at a next state. -/
theorem stepsAreTheAcceptedCommandsInOrder : Obligations.StepsAreTheAcceptedCommandsInOrder := by
  intro s t hq hr
  rw [steps_samples s.inputs rfl hq hr]
  exact mapNext_eq_next

/-! ### The grouping into reads -/

/-- The commands of some reads are one DATA for each byte they deliver (R76, R101; log 23 for a read of no bytes). -/
theorem readsOf_eq (reads : List (List Byte)) : readsOf reads = reads.flatten.map .data := by
  rw [readsOf, expandTrace, List.flatMap_map, List.map_flatten, List.flatMap_def]
  rfl

/-- Settles O58: the commands depend on the delivered bytes alone, and they are the bytes of the message. -/
theorem readGroupingDoesNotMatter : Obligations.ReadGroupingDoesNotMatter := by
  intro reads s hw hm
  refine ⟨fun others h => by rw [readsOf_eq, readsOf_eq, h], ?_⟩
  rw [readsOf_eq]
  obtain ⟨t, ht, finished⟩ := runInstrs_message reads.flatten hw hm
  exact ⟨t, ht, finished.digest⟩

end Sys2Proof.Machine
end

section
/-! PROOFS of the family 30_encoding, the words: a word decodes by its parts, and what decodes is its own encoding (R90 to R95). -/

namespace Sys2Proof

/-- Bit strings one behind the other are the sum of their numbers, the upper one moved up. -/
theorem toNat_append_eq_add {m n : Nat} (x : BitVec m) (y : BitVec n) : (x ++ y).toNat = x.toNat * 2 ^ n + y.toNat := by
  rw [BitVec.toNat_append, ← Nat.shiftLeft_add_eq_or_of_lt y.isLt, Nat.shiftLeft_eq]

/-! ### Command words -/

/-- The op field of a command word and the six bits above it. -/
theorem cmdWord_high (op : BitVec 2) (data : Byte) : (cmdWord op data).bits.extractLsb' 8 8 = (0 : BitVec 6) ++ op :=
  BitVec.extractLsb'_append_eq_left

/-- The ten bits of a command word (R90). -/
theorem cmdWord_low (op : BitVec 2) (data : Byte) : (cmdWord op data).bits.extractLsb' 0 10 = op ++ data := by
  rw [← BitVec.extractLsb'_append_extractLsb'_eq_extractLsb' (len₁ := 8) (len₂ := 2) (Nat.zero_add 8).symm, cmdWord,
    BitVec.extractLsb'_append_eq_right, BitVec.extractLsb'_append_eq_of_le (Nat.le_refl 8), BitVec.extractLsb'_append_eq_right]

/-- A CMD word decodes exactly when nothing is set above its ten bits, and by those (R90). -/
theorem decode_cmd_eq_ok {w : BitVec 16} {i : Instr} :
    decode ⟨.cmd, w⟩ = .ok i ↔ w.extractLsb' 10 6 = 0 ∧ decodeCmd (w.extractLsb' 0 10) = i := by
  show (if w.extractLsb' 10 6 = 0 then _ else _) = _ ↔ _
  split <;> simp_all

/-- Every command word decodes, to what its ten bits stand for (R93). -/
theorem decode_cmdWord (op : BitVec 2) (data : Byte) : decode (cmdWord op data) = .ok (decodeCmd (op ++ data)) := by
  have above : (cmdWord op data).bits.extractLsb' 10 6 = 0 := by
    rw [cmdWord, BitVec.extractLsb'_append_eq_of_le (by decide)]
    exact BitVec.extractLsb'_append_eq_left
  exact decode_cmd_eq_ok.2 ⟨above, congrArg decodeCmd (cmdWord_low op data)⟩

/-- What decodes as a command is the word of an op field and a data byte. -/
theorem exists_cmdWord_of_decode {w : BitVec 16} {i : Instr} (h : decode ⟨.cmd, w⟩ = .ok i) :
    ∃ op data, (⟨.cmd, w⟩ : TableWord) = cmdWord op data := by
  obtain ⟨above, -⟩ := decode_cmd_eq_ok.1 h
  have high : w.extractLsb' 8 8 = (0 : BitVec 6) ++ w.extractLsb' 8 2 := by
    rw [← above]; exact (BitVec.extractLsb'_append_extractLsb'_eq_extractLsb' (len₁ := 2) (len₂ := 6) rfl).symm
  have parts : w = w.extractLsb' 8 8 ++ w.extractLsb' 0 8 := (BitVec.extractLsb'_append_extractLsb' (w := 8) (len := 8)).symm
  rw [high] at parts
  exact ⟨w.extractLsb' 8 2, w.extractLsb' 0 8, congrArg (TableWord.mk .cmd) parts⟩

theorem decodeCmd_init (data : Byte) : decodeCmd ((0b00 : BitVec 2) ++ data) = .init := by
  rw [decodeCmd, BitVec.extractLsb'_append_eq_left]; rfl

theorem decodeCmd_data (data : Byte) : decodeCmd ((0b01 : BitVec 2) ++ data) = .data data := by
  rw [decodeCmd, BitVec.extractLsb'_append_eq_left, BitVec.extractLsb'_append_eq_right]; rfl

theorem decodeCmd_endMsg (data : Byte) : decodeCmd ((0b10 : BitVec 2) ++ data) = .endMsg := by
  rw [decodeCmd, BitVec.extractLsb'_append_eq_left]; rfl

theorem decodeCmd_fail (data : Byte) : decodeCmd ((0b11 : BitVec 2) ++ data) = .fail := by
  rw [decodeCmd, BitVec.extractLsb'_append_eq_left]; rfl

theorem op_cases : ∀ op : BitVec 2, op = 0b00 ∨ op = 0b01 ∨ op = 0b10 ∨ op = 0b11 := by decide

/-- A command's canonical word keeps the op field, and DATA's byte with it (R91, R92). -/
theorem encode_decodeCmd (op : BitVec 2) (data : Byte) :
    encode (decodeCmd (op ++ data)) = cmdWord op (if op = 0b01 then data else 0) := by
  rcases op_cases op with rfl | rfl | rfl | rfl
  · rw [decodeCmd_init]; rfl
  · rw [decodeCmd_data]; rfl
  · rw [decodeCmd_endMsg]; rfl
  · rw [decodeCmd_fail]; rfl

/-- Only the op field of DATA gives a DATA (R91). -/
theorem op_of_decodeCmd_eq_data {op : BitVec 2} {data v : Byte} (h : decodeCmd (op ++ data) = .data v) : op = 0b01 := by
  rcases op_cases op with rfl | rfl | rfl | rfl
  · rw [decodeCmd_init] at h; nomatch h
  · rfl
  · rw [decodeCmd_endMsg] at h; nomatch h
  · rw [decodeCmd_fail] at h; nomatch h

theorem wellFormed_decodeCmd (w : CmdWord) : (decodeCmd w).wellFormed = true := by
  rcases Machine.decodeCmd_cases w with e | ⟨v, e⟩ | e | e <;> rw [e] <;> rfl

/-! ### Words of internal operations -/

/-- A label is a round's, with a group and a position, or one of the labels from 0x40 on (R94, R95). -/
theorem label_cases (label : BitVec 7) :
    (∃ (fn : BitVec 2) (j : BitVec 4), label = (0 : BitVec 1) ++ fn ++ j) ∨ ∃ n : BitVec 6, label = (1 : BitVec 1) ++ n := by
  have position : label = label.extractLsb' 4 3 ++ label.extractLsb' 0 4 :=
    (BitVec.extractLsb'_append_extractLsb' (w := 3) (len := 4)).symm
  have group : label.extractLsb' 4 3 = label.extractLsb' 6 1 ++ label.extractLsb' 4 2 :=
    (BitVec.extractLsb'_append_extractLsb'_eq_extractLsb' (len₁ := 2) (len₂ := 1) rfl).symm
  have number : label = label.extractLsb' 6 1 ++ label.extractLsb' 0 6 :=
    (BitVec.extractLsb'_append_extractLsb' (w := 1) (len := 6)).symm
  rcases BitVec.eq_zero_or_eq_one (label.extractLsb' 6 1) with h | h
  · rw [group, h] at position
    exact .inl ⟨_, _, position⟩
  · rw [h] at number
    exact .inr ⟨_, number⟩

/-- The word of a round's label decodes to the round of its group and position (R95). -/
theorem decode_uopWord_round (fn : BitVec 2) (j : BitVec 4) (operand : Byte) :
    decode (uopWord ((0 : BitVec 1) ++ fn ++ j) operand) = plain (roundOf fn j) operand := by
  have clear : ((0 : BitVec 1) ++ fn ++ j).getLsbD 6 = false := by
    rw [BitVec.getLsbD_append, BitVec.getLsbD_append]; rfl
  have group : ((0 : BitVec 1) ++ fn ++ j).extractLsb' 4 2 = fn := by
    rw [BitVec.extractLsb'_append_eq_of_le (Nat.le_refl 4)]
    exact BitVec.extractLsb'_append_eq_right
  have position : ((0 : BitVec 1) ++ fn ++ j).extractLsb' 0 4 = j := BitVec.extractLsb'_append_eq_right
  refine (decodeUop_parts _ _).trans ?_
  rw [clear, group, position]
  exact if_neg Bool.false_ne_true

/-- The word of a label from 0x40 on decodes by the label's low six bits (R94). -/
theorem decode_uopWord_other (n : BitVec 6) (operand : Byte) :
    decode (uopWord ((1 : BitVec 1) ++ n) operand) = otherOf n operand := by
  have bitSix : ((1 : BitVec 1) ++ n).getLsbD 6 = true := by
    rw [BitVec.getLsbD_append]; rfl
  refine (decodeUop_parts _ _).trans ?_
  rw [if_pos bitSix, show ((1 : BitVec 1) ++ n).extractLsb' 0 6 = n from BitVec.extractLsb'_append_eq_right]

/-- What decodes as an internal operation is the word of a label and an operand byte: bit 7 is clear (R94; log 8). -/
theorem exists_uopWord_of_decode {w : BitVec 16} {i : Instr} (h : decode ⟨.uop, w⟩ = .ok i) :
    ∃ label operand, (⟨.uop, w⟩ : TableWord) = uopWord label operand := by
  cases h7 : w.getLsbD 7 with
  | true =>
    change (if w.getLsbD 7 then _ else _) = _ at h
    rw [if_pos h7] at h
    nomatch h
  | false =>
    have parts := word_parts w
    rw [h7] at parts
    exact ⟨w.extractLsb' 0 7, w.extractLsb' 8 8, congrArg (TableWord.mk .uop) parts⟩

theorem plain_eq_ok {i i' : Instr} {operand : Byte} : plain i operand = .ok i' ↔ operand = 0 ∧ i = i' := by
  rw [plain]; split <;> simp_all

theorem onBlock_eq_ok {f : Byte → Instr} {i : Instr} {operand : Byte} :
    onBlock f operand = .ok i ↔ validBase operand = true ∧ f operand = i := by
  rw [onBlock]; split <;> simp_all

/-- The labels from 0x4A on name nothing (R94, R99). -/
theorem otherOf_unused {n : BitVec 6} (h : 10 ≤ n.toNat) (operand : Byte) : otherOf n operand = .error .unusedLabel := by
  unfold otherOf
  split
  case h_11 => rfl
  all_goals omega

/-- A round's word is its label with its group and position (R95). -/
theorem encode_roundOf : ∀ (fn : BitVec 2) (j : BitVec 4), encode (roundOf fn j) = uopWord ((0 : BitVec 1) ++ fn ++ j) 0 := by
  decide

theorem wellFormed_roundOf : ∀ (fn : BitVec 2) (j : BitVec 4), (roundOf fn j).wellFormed = true := by decide

/-- What a label from 0x40 on names is well formed and has that label and operand byte as its word. -/
theorem otherOf_eq_ok {n : BitVec 6} {operand : Byte} {i : Instr} (h : otherOf n operand = .ok i) :
    i.wellFormed = true ∧ encode i = uopWord ((1 : BitVec 1) ++ n) operand := by
  have literal : BitVec.ofNat 6 n.toNat = n := by simp
  unfold otherOf at h
  split at h
  case h_11 => nomatch h
  all_goals
    rename_i number
    rw [number] at literal
    subst literal
  -- APPEND takes every operand, PARSE and COMPRESS a base, the other operations none
  case h_1 => obtain rfl := Except.ok.inj h; exact ⟨rfl, rfl⟩
  case h_6 | h_9 => obtain ⟨hbase, rfl⟩ := onBlock_eq_ok.1 h; exact ⟨hbase, rfl⟩
  all_goals obtain ⟨rfl, rfl⟩ := plain_eq_ok.1 h; exact ⟨rfl, rfl⟩

/-- What a UOP word decodes to is well formed and has that word as its own. -/
theorem decode_uopWord_eq_ok {label : BitVec 7} {operand : Byte} {i : Instr} (h : decode (uopWord label operand) = .ok i) :
    i.wellFormed = true ∧ encode i = uopWord label operand := by
  rcases label_cases label with ⟨fn, j, rfl⟩ | ⟨n, rfl⟩
  · rw [decode_uopWord_round] at h
    obtain ⟨rfl, rfl⟩ := plain_eq_ok.1 h
    exact ⟨wellFormed_roundOf fn j, encode_roundOf fn j⟩
  · rw [decode_uopWord_other] at h
    exact otherOf_eq_ok h

/-! ### The statements -/

/-- Settles O1: an operand is found again where the encoder puts it, and the word of an instruction without one is a literal. -/
theorem decodeEncodeRoundTrip : Obligations.DecodeEncodeRoundTrip := by
  intro i hwf
  cases i
  case data v => exact (decode_cmdWord 0b01 v).trans (congrArg _ (decodeCmd_data v))
  case append v => exact decode_uopWord_other 0 v
  case parse base => exact (decode_uopWord_other 5 base).trans (onBlock_eq_ok.2 ⟨hwf, rfl⟩)
  case compress base => exact (decode_uopWord_other 8 base).trans (onBlock_eq_ok.2 ⟨hwf, rfl⟩)
  all_goals rfl

/-- Settles O2: a UOP word by its label and operand byte, a command word by its op field. -/
theorem decodedWordIsItsEncoding : Obligations.DecodedWordIsItsEncoding := by
  rintro ⟨format, w⟩ i h
  cases format with
  | uop =>
    obtain ⟨label, operand, hw⟩ := exists_uopWord_of_decode h
    rw [hw] at h ⊢
    obtain ⟨hwf, henc⟩ := decode_uopWord_eq_ok h
    exact ⟨hwf, fun _ => henc, fun hf => nomatch hf⟩
  | cmd =>
    obtain ⟨op, data, hw⟩ := exists_cmdWord_of_decode h
    rw [hw] at h ⊢
    obtain rfl : decodeCmd (op ++ data) = i := Except.ok.inj ((decode_cmdWord op data).symm.trans h)
    refine ⟨wellFormed_decodeCmd _, fun hf => (nomatch hf), fun _ => ?_⟩
    rw [encode_decodeCmd]
    refine ⟨rfl, (cmdWord_high op _).trans (cmdWord_high op data).symm, ?_⟩
    rintro ⟨v, hv⟩
    rw [if_pos (op_of_decodeCmd_eq_data hv)]

/-- Settles O3: a command word decodes by its op field, and a label from 0x4A on has the low six bits of no operation. -/
theorem everyCommandWordDecodesAndUnusedLabelsDoNot : Obligations.EveryCommandWordDecodesAndUnusedLabelsDoNot := by
  refine ⟨fun op data => ⟨decode_cmdWord op data, ?_, ?_, ?_, ?_⟩, fun label operand h => ?_⟩
  · rintro rfl; exact decodeCmd_init data
  · rintro rfl; exact decodeCmd_data data
  · rintro rfl; exact decodeCmd_endMsg data
  · rintro rfl; exact decodeCmd_fail data
  · rcases label_cases label with ⟨fn, j, rfl⟩ | ⟨n, rfl⟩
    · rw [toNat_append_eq_add, toNat_append_eq_add] at h
      change 0x4A ≤ (0 * 2 ^ 2 + fn.toNat) * 2 ^ 4 + j.toNat at h
      omega
    · rw [toNat_append_eq_add] at h
      change 0x4A ≤ 1 * 2 ^ 6 + n.toNat at h
      rw [decode_uopWord_other]
      exact otherOf_unused (by omega) operand

/-- Settles O4: each word is a literal, and the decoder evaluates on it. -/
theorem sampleWordsDecode : Obligations.SampleWordsDecode := by
  unfold Obligations.SampleWordsDecode
  decide

end Sys2Proof
end

section
/-! PROOFS of the family 30_encoding, the word index: in each group it is an affine map modulo 16 with an odd multiplier (R96, R148). -/

namespace Sys2Proof.Machine

/-! ### G_fn, one equation a group (R96) -/

theorem wordIndex_F {i : BitVec 6} (h : groupOf i = 0b00) : (wordIndex i).val = i.toNat % 16 := by rw [wordIndex, h]; rfl

theorem wordIndex_G {i : BitVec 6} (h : groupOf i = 0b01) : (wordIndex i).val = (5 * i.toNat + 1) % 16 := by rw [wordIndex, h]; rfl

theorem wordIndex_H {i : BitVec 6} (h : groupOf i = 0b10) : (wordIndex i).val = (3 * i.toNat + 5) % 16 := by rw [wordIndex, h]; rfl

theorem wordIndex_I {i : BitVec 6} (h : groupOf i = 0b11) : (wordIndex i).val = 7 * i.toNat % 16 := by rw [wordIndex, h]; rfl

/-- By the position in the group, the multiple of 16 that the group begins at drops out. -/
theorem wordIndex_affine (fn : BitVec 2) :
    ∃ m c : Nat, Nat.Coprime 16 m ∧ ∀ j : BitVec 4, (wordIndex (fn ++ j)).val = (m * j.toNat + c) % 16 := by
  have group : ∀ j : BitVec 4, groupOf (fn ++ j) = fn := fun j => BitVec.extractLsb'_append_eq_left
  have index : ∀ j : BitVec 4, (fn ++ j).toNat = fn.toNat * 2 ^ 4 + j.toNat := toNat_append_eq_add fn
  rcases op_cases fn with rfl | rfl | rfl | rfl
  · refine ⟨1, 0, by decide, fun j => ?_⟩
    rw [wordIndex_F (group j), index]; omega
  · refine ⟨5, 1, by decide, fun j => ?_⟩
    rw [wordIndex_G (group j), index]; omega
  · refine ⟨3, 5, by decide, fun j => ?_⟩
    rw [wordIndex_H (group j), index]; omega
  · refine ⟨7, 0, by decide, fun j => ?_⟩
    rw [wordIndex_I (group j), index]; omega

/-- Settles O7: the table by evaluation; an odd multiplier is prime to 16, so the positions of a group have different indices. -/
theorem wordIndexTable : Obligations.WordIndexTable := by
  refine ⟨by decide, fun fn a b h => BitVec.eq_of_toNat_eq ?_⟩
  obtain ⟨m, c, coprime, affine⟩ := wordIndex_affine fn
  have indices : m * a.toNat + c ≡ m * b.toNat + c [MOD 16] := by
    rw [Nat.ModEq, ← affine a, ← affine b]
    exact congrArg Fin.val h
  have positions : a.toNat ≡ b.toNat [MOD 16] :=
    Nat.ModEq.cancel_left_of_coprime coprime (Nat.ModEq.add_right_cancel' c indices)
  exact Nat.ModEq.eq_of_lt_of_lt positions a.isLt b.isLt

end Sys2Proof.Machine
end

section
/-! PROOFS of the family 30_encoding, running a word: an issued operation, a word of the table placed for the next step (logs 7, 8, 12),
and the pseudo-instructions of command sequences (R100, R101). -/

namespace Sys2Proof.Machine

/-- Settles O42: of what a step can do with an operation issued, one case has `rst` at 0 and a word that decodes, one a word that
does not. -/
theorem stepRunsTheIssuedOperation : Obligations.StepRunsTheIssuedOperation := by
  intro s u hu hr
  refine ⟨by rw [State.cmdReady, hu]; rfl, ?_⟩
  rcases step_issued hu with ⟨hr', -⟩ | ⟨-, i, hd, e⟩ | ⟨-, ⟨_, hd⟩, e⟩
  · rw [hr] at hr'; nomatch hr'
  · simp [hd, e]
  · simp [hd, e]

/-! ### The placed word -/

/-- A row of the table that decodes has sixteen bits, read as a UOP word when it is at most a byte long (log 8). -/
theorem decodeTableWord_eq_some {nbits w : Nat} {i : Instr} (h : decodeTableWord nbits w = some i) :
    w < 2 ^ 16 ∧ decode ⟨if nbits ≤ 8 then .uop else .cmd, BitVec.ofNat 16 w⟩ = .ok i := by
  unfold decodeTableWord at h
  split at h
  · next hw =>
    refine ⟨hw.1, ?_⟩
    split at h
    · next hd => rw [hd, Option.some.inj h]
    · nomatch h
  · nomatch h

/-- A ROUND's word is its index (R95). -/
theorem encode_round {k : BitVec 6} {i : Instr} (h : isRound k i) : encode i = ⟨.uop, k.setWidth 16⟩ := by
  rw [h, encode_roundOf]
  clear h
  revert k
  decide

/-- A ROUND is read from one word only, its index as a UOP word. -/
theorem word_of_decode_round {f : Format} {w : Nat} {k : BitVec 6} {i : Instr} (hw : w < 2 ^ 16) (hk : isRound k i)
    (h : decode ⟨f, BitVec.ofNat 16 w⟩ = .ok i) : f = .uop ∧ w = k.toNat := by
  obtain ⟨-, huop, hcmd⟩ := decodedWordIsItsEncoding _ i h
  rw [encode_round hk] at huop hcmd
  cases f with
  | cmd => exact nomatch (hcmd rfl).1
  | uop =>
    have bits : k.setWidth 16 = BitVec.ofNat 16 w := congrArg TableWord.bits (huop rfl)
    refine ⟨rfl, ?_⟩
    calc w = (BitVec.ofNat 16 w).toNat := ((BitVec.toNat_ofNat w 16).trans (Nat.mod_eq_of_lt hw)).symm
      _ = k.toNat := by rw [← bits, BitVec.toNat_setWidth_of_le (by decide)]

/-- The ten bits of a command's row, as the host offers them. -/
theorem decode_cmd_ofNat {w : Nat} {i : Instr} (h : decode ⟨.cmd, BitVec.ofNat 16 w⟩ = .ok i) : decodeCmd (BitVec.ofNat 10 w) = i := by
  obtain ⟨-, rfl⟩ := decode_cmd_eq_ok.1 h
  congr 1
  apply BitVec.eq_of_toNat_eq
  rw [BitVec.extractLsb'_toNat]
  simp

/-- A short row's word is issued: the step runs it on the placed state with nothing issued. -/
theorem step_withFetchWord_short (s : State) {nbits w : Nat} {i : Instr} (hn : nbits ≤ 8)
    (hd : decode ⟨.uop, BitVec.ofNat 16 w⟩ = .ok i) :
    step (s.withFetchWord nbits w) = exec i { s.withFetchWord nbits w with issue := none } := by
  have issued : (s.withFetchWord nbits w).issue = some (BitVec.ofNat 16 w) := by
    rw [State.withFetchWord, placeWord, if_pos hn]
  have noReset : (s.withFetchWord nbits w).rstAsserted = false := by
    rw [State.withFetchWord, placeWord, if_pos hn]; rfl
  obtain ⟨-, runs, -⟩ := stepRunsTheIssuedOperation _ _ issued noReset
  exact runs i hd

/-- A long row's word is offered: the step accepts it and takes its sample off again. -/
theorem step_withFetchWord_long (s : State) {nbits w : Nat} {i : Instr} (hn : ¬ nbits ≤ 8)
    (hd : decode ⟨.cmd, BitVec.ofNat 16 w⟩ = .ok i) :
    step (s.withFetchWord nbits w) = exec i { s with issue := none, freeIndex := s.freeIndex + 1 } := by
  rw [State.withFetchWord, placeWord, if_neg hn, ← decode_cmd_ofNat hd]
  exact stepRunsTheAcceptedCommand _ (offer (BitVec.ofNat 10 w)) s.inputs rfl rfl rfl rfl

/-- Settles O43: the issued or the offered word runs, and a ROUND's word is its index, which RND is set to. -/
theorem placedWordRunsNext : Obligations.PlacedWordRunsNext := by
  intro s nbits w i h
  obtain ⟨hw, hd⟩ := decodeTableWord_eq_some h
  by_cases hn : nbits ≤ 8
  · rw [if_pos hn] at hd
    refine ⟨_, step_withFetchWord_short s hn hd, ?_, fun k hk => ?_⟩
    · rw [State.withFetchWord, placeWord, if_pos hn]
    · obtain ⟨-, rfl⟩ := word_of_decode_round hw hk hd
      simp [State.withFetchWord, placeWord, hn, k.isLt]
  · rw [if_neg hn] at hd
    refine ⟨_, step_withFetchWord_long s hn hd, rfl, fun k hk => ?_⟩
    obtain ⟨hf, -⟩ := word_of_decode_round hw hk hd
    nomatch hf

/-! ### The pseudo-instructions -/

/-- A listing shows a command word's ten bits (R92, R100). -/
theorem commandWord_eq {i : Instr} {op : BitVec 2} {data : Byte} (h : encode i = cmdWord op data) : commandWord i = op ++ data := by
  rw [commandWord, h, cmdWord_low]

/-- Settles O60: the expansions are maps over the bytes, and the words are an op field before a byte. -/
theorem notationExpands : Obligations.NotationExpands := by
  refine ⟨fun vs n v => ⟨rfl, rfl, fun cs _ => ?text, ?rep, rfl, ?word⟩, commandWord_eq (op := 0b00) (data := 0) rfl,
    commandWord_eq (op := 0b10) (data := 0) rfl, commandWord_eq (op := 0b11) (data := 0) rfl⟩
  case text => exact List.map_map.symm
  case rep => exact List.map_replicate.symm
  case word => rw [commandWord_eq (op := 0b01) (data := v) rfl, toNat_append_eq_add]; rfl

end Sys2Proof.Machine
end

section
/-! PROOFS of the family 40_padder: each operation of the Padder is a row of APPENDs, and a row of APPENDs that has room is one state,
whose CNT, whose new bytes and whose frame are said once (R120 to R128). -/

namespace Sys2Proof.Machine

/-! ### A row of APPENDs -/

/-- The state a row of APPENDs leaves. -/
def afterAppends (vs : List Byte) (s : State) : State :=
  s.setBuf (memWrite s.buf s.cnt.toNat vs) (s.cnt + BitVec.ofNat 8 vs.length)

theorem afterAppends_sameButBuf (vs : List Byte) (s : State) : SameButBuf s (afterAppends vs s) := rfl

section Row
variable {vs : List Byte} {s : State} (hw : s.buf.wf = true) (h : s.cnt.toNat + vs.length ≤ 128)

include h in
theorem afterAppends_cnt : (afterAppends vs s).cnt.toNat = s.cnt.toNat + vs.length :=
  cnt_add (by omega)

include hw h

theorem afterAppends_sameOutside : SameOutside s (afterAppends vs s) s.cnt.toNat vs.length :=
  fun _ ha => memWrite_read_outside vs hw h ha

/-- The valid part of BUF is the old one and the row behind it. -/
theorem afterAppends_valid :
    (afterAppends vs s).buf.slice 0 (s.cnt.toNat + vs.length) = s.buf.slice 0 s.cnt.toNat ++ vs :=
  slice_memWrite vs hw h

theorem afterAppends_slice : (afterAppends vs s).buf.slice s.cnt.toNat vs.length = vs := by
  have hdrop := Memory.slice_drop (afterAppends vs s).buf (s.cnt.toNat + vs.length) s.cnt.toNat
  rw [afterAppends_valid hw h, List.drop_left' (Memory.slice_length _ _ _), Nat.add_sub_cancel_left] at hdrop
  exact hdrop.symm

theorem afterAppends_read {k : Nat} (hk : k < vs.length) :
    (afterAppends vs s).buf.read (s.cnt.toNat + k) = vs[k] := by
  have hget := Memory.slice_getElem? (afterAppends vs s).buf s.cnt.toNat vs.length k
  rw [afterAppends_slice hw h, List.getElem?_eq_getElem hk, if_pos hk] at hget
  exact (Option.some.inj hget).symm

end Row

/-! ### The operations as rows -/

theorem exec_append {v : Byte} {s : State} (h : s.cnt.toNat ≤ 127) : exec (.append v) s = .next (afterAppends [v] s) :=
  append_next (Nat.lt_succ_of_le h)

/-- The zeros PADZ writes from `n` on: up to the next count that is 56 modulo 64 (R122). -/
def zeroFill (n : Nat) : List Byte := List.replicate ((120 - n) % 64) 0x00

@[simp] theorem zeroFill_length (n : Nat) : (zeroFill n).length = (120 - n) % 64 := List.length_replicate

theorem exec_padz {s : State} (h : s.cnt.toNat ≤ 120) : exec .padz s = .next (afterAppends (zeroFill s.cnt.toNat) s) := by
  rw [afterAppends, zeroFill_length]
  exact padZeros_next h

theorem exec_padlen {s : State} (h : s.cnt.toNat ≤ 120) :
    exec .padlen s = .next (afterAppends (lengthField (bitLen s.len)) s) :=
  padLength_next h

theorem exec_pad {s : State} (h : s.cnt.toNat ≤ 119) :
    exec .pad s = .next (afterAppends (padBytes s.cnt.toNat (bitLen s.len)) s) := by
  rw [afterAppends, padBytes_length]
  exact padAll_next h

theorem andThen_next_right (r : Result) : andThen r .next = r := by
  cases r <;> rfl

/-- PAD is its three operations one by one, in every state, also where one of them stops (R124). -/
theorem runInstrs_padProgram (s : State) : runInstrs [.pad80, .padz, .padlen] s = exec .pad s := by
  have hlast : runInstrs [.padlen] = padLength := funext fun t => andThen_next_right (padLength t)
  calc runInstrs [.pad80, .padz, .padlen] s
      = andThen (padMarker s) fun t => andThen (padZeros t) (runInstrs [.padlen]) := rfl
    _ = exec .pad s := by rw [hlast, ← andThen_assoc]; rfl

/-! ### Where no zero is needed, and where there is no room -/

/-- No zero is appended when the count is 56 modulo 64 already, also past the buffer (R122). -/
theorem padZeros_none {s : State} (h : s.cnt.toNat % 64 = 56) : padZeros s = .next s := if_pos h

/-- PAD stops at its marker or, the marker stored at 120 or above, at the zero fill. -/
theorem padAll_full {s : State} (h : 120 ≤ s.cnt.toNat) : padAll s = .fault .bufferOverrun := by
  rw [padAll, padMarker]
  by_cases hroom : s.cnt.toNat < 128
  · have hcnt : (s.cnt + 1).toNat = s.cnt.toNat + 1 := cnt_succ (by omega)
    rw [append_next hroom, andThen_next, padZeros_full, andThen_fault] <;> rw [State.setBuf_cnt, hcnt] <;> omega
  · rw [append_full (Nat.le_of_not_lt hroom), andThen_fault, andThen_fault]

/-! ### The length field -/

theorem toNat_bitLen (len : BitVec 64) : (bitLen len).toNat = (len.toNat * 8) % 2 ^ 64 := BitVec.toNat_mul len 8

theorem longByte_eq_ofNat (x : BitVec 64) (k : Nat) : longByte x k = BitVec.ofNat 8 (x.toNat / 2 ^ (8 * k)) := by
  rw [longByte, BitVec.extractLsb', Nat.shiftRight_eq_div_pow]

theorem lengthField_getElem (x : BitVec 64) {k : Nat} (hk : k < (lengthField x).length) :
    (lengthField x)[k] = longByte x k := by
  simp [lengthField]

/-! ### The padding as a function -/

theorem padFn_length (rem : List Byte) (bits : BitVec 64) (h : rem.length ≤ 63) :
    (padFn rem bits).length = if rem.length ≤ 55 then 64 else 128 := by
  rw [padFn_eq, List.length_append, padBytes_length]
  split <;> omega

/-- The length field is the last eight bytes of the padding. -/
theorem padFn_drop (rem : List Byte) (bits : BitVec 64) :
    (padFn rem bits).drop ((padFn rem bits).length - 8) = lengthField bits := by
  rw [padFn, List.length_append, lengthField_length, Nat.add_sub_cancel]
  exact List.drop_left

theorem padBytes_getElem?_zero {n k : Nat} (bits : BitVec 64) (hk : k < (119 - n) % 64) :
    (padBytes n bits)[k + 1]? = some 0x00 := by
  rw [padBytes, List.getElem?_cons_succ, List.getElem?_append_left (by rwa [List.length_replicate]),
    List.getElem?_replicate_of_lt hk]

/-! ### The statements -/

/-- APPEND, for the byte of an APPEND v and for the one of PAD80. -/
theorem exec_append_stores (v : Byte) {s : State} (hw : s.buf.wf = true) (h : s.cnt.toNat ≤ 127) :
    ∃ t, exec (.append v) s = .next t ∧ SameButBuf s t ∧ t.cnt = s.cnt + 1 ∧ t.cnt.toNat ≤ 128 ∧
      t.buf.read s.cnt.toNat = v ∧ SameOutside s t s.cnt.toNat 1 := by
  have room : s.cnt.toNat + [v].length ≤ 128 := Nat.succ_le_succ h
  exact ⟨afterAppends [v] s, exec_append h, rfl, rfl, (afterAppends_cnt room).trans_le room,
    afterAppends_read hw room (k := 0) Nat.one_pos, afterAppends_sameOutside hw room⟩

/-- Settles O19: an APPEND with room is a row of one byte, and PAD80 is an APPEND. -/
theorem appendStoresOneByte : Obligations.AppendStoresOneByte := fun v _ hw h =>
  ⟨⟨rfl, uopWord_label 0x40 v⟩, ⟨rfl, uopWord_label 0x41 0⟩, exec_append_stores v hw h, exec_append_stores 0x80 hw h⟩

/-- Settles O20: PADZ is a row of (120 - CNT) mod 64 zeros. -/
theorem zeroFillReaches56Modulo64 : Obligations.ZeroFillReaches56Modulo64 := by
  refine ⟨⟨rfl, uopWord_label 0x42 0⟩, fun s hw h => ?_⟩
  have hlength := zeroFill_length s.cnt.toNat
  have room : s.cnt.toNat + (zeroFill s.cnt.toNat).length ≤ 128 := by omega
  have hcnt := afterAppends_cnt room
  refine ⟨_, exec_padz h, rfl, by omega, by omega, by omega, ?between, ?frame, ?afterPad80⟩
  case between =>
    intro a hlow hhigh
    obtain ⟨k, rfl⟩ := Nat.exists_eq_add_of_le hlow
    rw [afterAppends_read hw room (by omega)]
    exact List.getElem_replicate _
  case frame =>
    rw [hcnt, Nat.add_sub_cancel_left]
    exact afterAppends_sameOutside hw room
  case afterPad80 =>
    intro r hr hcount
    refine ⟨by omega, ?_⟩
    split <;> omega

/-- Settles O21: PADLEN is the row of the eight bytes of BITLEN. -/
theorem lengthFieldIsAppended : Obligations.LengthFieldIsAppended := by
  refine ⟨⟨rfl, uopWord_label 0x43 0⟩, fun s hw h => ?_⟩
  have room : s.cnt.toNat + (lengthField (bitLen s.len)).length ≤ 128 := by rw [lengthField_length]; omega
  refine ⟨_, exec_padlen h, rfl, afterAppends_cnt room, ?number, fun k hk => ?byte, rfl, afterAppends_sameOutside hw room⟩
  case number =>
    have hfield := afterAppends_slice hw room
    rw [lengthField_length] at hfield
    rw [memRead_eq, hfield, littleEndian_lengthField, toNat_bitLen]
  case byte =>
    have hin : k < (lengthField (bitLen s.len)).length := by rwa [lengthField_length]
    rw [afterAppends_read hw room hin, lengthField_getElem, longByte_eq_ofNat, toNat_bitLen]

/-- Settles O22: PAD is the row of the bytes that the function pad puts behind the remainder. -/
theorem padBuildsThePaddedTail : Obligations.PadBuildsThePaddedTail := by
  refine ⟨⟨rfl, uopWord_label 0x44 0⟩, fun s hw h => ?_⟩
  have hexec := exec_pad (s := s) (by omega)
  have hlength := padBytes_length s.cnt.toNat (bitLen s.len)
  have room : s.cnt.toNat + (padBytes s.cnt.toNat (bitLen s.len)).length ≤ 128 := by omega
  have hcnt := afterAppends_cnt room
  refine ⟨_, hexec, rfl, (runInstrs_padProgram s).trans hexec, ?_, ?_, ?_⟩
  · rw [hcnt, afterAppends_valid hw room, padFn_eq, Memory.slice_length]
  · rw [hcnt, hlength]; split <;> omega
  · rw [hcnt, Nat.add_sub_cancel_left]; exact afterAppends_sameOutside hw room

/-- Settles O23: the parts of pad(rem, L) stand one behind the other, each of known length. -/
theorem paddedOutputShape : Obligations.PaddedOutputShape := by
  intro rem bits h
  refine ⟨padFn_length rem bits h, ?remainder, ?marker, fun n hlow hhigh => ?zeros, ?field⟩
  case remainder => rw [padFn_eq, List.take_left]
  case marker => rw [padFn_eq, List.getElem?_append_right (Nat.le_refl _), Nat.sub_self]; rfl
  case zeros =>
    obtain ⟨k, rfl⟩ := Nat.exists_eq_add_of_lt hlow
    rw [padFn_eq, List.length_append, padBytes_length] at hhigh
    rw [padFn_eq, Nat.add_assoc, List.getElem?_append_right (Nat.le_add_right _ _), Nat.add_sub_cancel_left]
    exact padBytes_getElem?_zero bits (by omega)
  case field => rw [padFn_drop, littleEndian_lengthField]

/-- Settles O24: each operation comes to an APPEND with CNT at 128 or more. -/
theorem padderStopsPastTheBuffer : Obligations.PadderStopsPastTheBuffer := fun s =>
  ⟨fun h => ⟨fun _ => append_full h, append_full h⟩, padZeros_none, padZeros_full,
    fun h => appendAll_full (lengthField (bitLen s.len)) (by rw [lengthField_length]; omega) (List.cons_ne_nil _ _), padAll_full⟩

end Sys2Proof.Machine
end

section
/-! PROOFS of the family 41_compressor, the operands of a round: the four functions are a choice of bits (F and G) and exclusive ors
(H and I), and the tables pass the spec's checks (R144 to R147, R151, R152). -/

namespace Sys2Proof.Machine

/-! ### The four functions -/

/-- F and G are one function of their words in a different order (R145). -/
theorem fnG_eq_fnF (b c d : Word) : fnG b c d = fnF d b c := rfl

theorem getLsbD_fnF (b c d : Word) {n : Nat} (h : n < 32) :
    (fnF b c d).getLsbD n = if b.getLsbD n then c.getLsbD n else d.getLsbD n := by
  rw [fnF, BitVec.getLsbD_or, BitVec.getLsbD_and, BitVec.getLsbD_and, BitVec.getLsbD_not]
  cases b.getLsbD n <;> simp [h]

theorem getLsbD_fnH (b c d : Word) (n : Nat) :
    (fnH b c d).getLsbD n = ((b.getLsbD n ^^ c.getLsbD n) ^^ d.getLsbD n) := by
  rw [fnH, BitVec.getLsbD_xor, BitVec.getLsbD_xor]

theorem getLsbD_fnI (b c d : Word) {n : Nat} (h : n < 32) :
    (fnI b c d).getLsbD n = (c.getLsbD n ^^ (b.getLsbD n || !d.getLsbD n)) := by
  rw [fnI, BitVec.getLsbD_xor, BitVec.getLsbD_or, BitVec.getLsbD_not, decide_eq_true h, Bool.true_and]

/-- The selector chooses the third word where it is all zeros (R144). -/
theorem fnF_zero (x y : Word) : fnF 0 x y = y := by
  apply BitVec.eq_of_getLsbD_eq
  intro n hn
  rw [getLsbD_fnF 0 x y hn, BitVec.ofNat_eq_ofNat, BitVec.getLsbD_zero, if_neg Bool.false_ne_true]

/-- The selector chooses the second word where it is all ones (R144). -/
theorem fnF_allOnes (x y : Word) : fnF (BitVec.allOnes 32) x y = x := by
  apply BitVec.eq_of_getLsbD_eq
  intro n hn
  rw [getLsbD_fnF (BitVec.allOnes 32) x y hn, BitVec.getLsbD_allOnes, decide_eq_true hn, if_pos rfl]

/-- Between equal words there is nothing to choose (R144). -/
theorem fnF_same (x y : Word) : fnF x y y = y := by
  apply BitVec.eq_of_getLsbD_eq
  intro n hn
  rw [getLsbD_fnF x y y hn, ite_self]

/-- Two equal words cancel in H, wherever they stand. -/
theorem fnH_cancel (x y : Word) : fnH x x y = y ∧ fnH x y y = x ∧ fnH x y x = y := by
  refine ⟨?_, ?_, ?_⟩
  · rw [fnH, BitVec.xor_self, BitVec.zero_xor]
  · rw [fnH, BitVec.xor_assoc, BitVec.xor_self, BitVec.xor_zero]
  · rw [fnH, BitVec.xor_comm x y, BitVec.xor_assoc, BitVec.xor_self, BitVec.xor_zero]

theorem fnI_zero (x y : Word) : fnI x y 0 = ~~~y := by
  rw [fnI, BitVec.ofNat_eq_ofNat, BitVec.not_zero, BitVec.or_allOnes, BitVec.xor_allOnes]

/-- Settles O6: G is F with its words in another order, so its bits and its corner cases are F's. -/
theorem roundFunctionsBitByBit : Obligations.RoundFunctionsBitByBit := by
  refine ⟨fun b c d n hn => ?bits, fun x y z => ?corners, by decide, by decide, by decide, by decide, rfl, rfl, rfl, rfl⟩
  case bits =>
    exact ⟨getLsbD_fnF b c d hn, getLsbD_fnF d b c hn, getLsbD_fnH b c d n, getLsbD_fnI b c d hn⟩
  case corners =>
    obtain ⟨hxxy, hxyy, hxyx⟩ := fnH_cancel x y
    exact ⟨fnF_zero x y, fnF_allOnes x y, fnF_same x y, fnF_zero x y, fnF_allOnes x y, fnG_eq_fnF x y z,
      hxxy, hxyy, hxyx, fnI_zero x y⟩

/-! ### The tables -/

/-- A sum of words is the sum of their numbers modulo 2^32 (R149). -/
theorem toNat_foldl_add (xs : List Word) (x : Word) :
    (xs.foldl (· + ·) x).toNat = (x.toNat + (xs.map BitVec.toNat).sum) % 2 ^ 32 := by
  induction xs generalizing x with
  | nil => exact (Nat.mod_eq_of_lt x.isLt).symm
  | cons y ys ih =>
    rw [List.foldl_cons, ih, BitVec.toNat_add, Nat.mod_add_mod, List.map_cons, List.sum_cons, Nat.add_assoc]

/-- Settles O8: the four checks, each by evaluating the tables. -/
theorem tablesPassTheSpecsChecks : Obligations.TablesPassTheSpecsChecks := by
  refine ⟨?sumOfS, ?boundsOfS, ?xorOfK, ?sumOfK⟩
  case sumOfS => decide
  case boundsOfS => decide
  case xorOfK => decide
  case sumOfK =>
    apply BitVec.eq_of_toNat_eq
    rw [toNat_foldl_add]
    decide

end Sys2Proof.Machine
end

section
/-! PROOFS of the family 41_compressor, the operations: what each answers in its place, that it stops out of place, and that a COMPRESS
is its 67 operations one by one (R140 to R143, R153, R154, R156). -/

namespace Sys2Proof.Machine

/-! ### A round -/

/-- A ROUND instruction is `roundAt` its index (R143). -/
theorem exec_round {i : BitVec 6} {x : Instr} (h : isRound i x) (s : State) :
    exec x s = roundAt Config.tables i (mixOf (groupOf i)) (wordIndex i) s := by
  rw [h, exec_roundOf]

/-- A ROUND's label is its index (R94, R95). -/
theorem hasLabel_round {i : BitVec 6} {x : Instr} (h : isRound i x) : HasLabel x ((0 : BitVec 1) ++ i) := by
  rw [HasLabel, encode_round h]
  refine ⟨rfl, ?_⟩
  clear h
  revert i
  decide

/-- RND counts the rounds modulo 64 (R25, R143). -/
theorem rnd_succ (i : BitVec 6) : i + 1 = BitVec.ofNat 6 ((i.toNat + 1) % 64) := by
  apply BitVec.eq_of_toNat_eq
  rw [BitVec.toNat_add, BitVec.toNat_ofNat, Nat.mod_mod]
  rfl

/-- Settles O17: a ROUND in its place answers the template's next state. -/
theorem everyRoundIsTheTemplate : Obligations.EveryRoundIsTheTemplate := by
  intro i x s hx hrnd
  refine ⟨hasLabel_round hx, ?_⟩
  rw [exec_round hx, roundAt_eq_next.2 ⟨hrnd, rfl⟩, ← rnd_succ]
  rfl

theorem roundAt_outOfOrder {T : Tables} {i : BitVec 6} {f : Word → Word → Word → Word} {g : Fin 16} {s : State} (h : s.rnd ≠ i) :
    roundAt T i f g s = .fault .roundOutOfOrder := if_neg h

/-! ### The place of a block -/

theorem onBase_valid {base : Byte} (h : base = 0 ∨ base = 64) (f : Nat → State → State) (s : State) :
    onBase base f s = .next (f base.toNat s) := by
  rcases onBase_cases base f s with ⟨-, e⟩ | ⟨⟨h0, h64⟩, -⟩
  · exact e
  · exact absurd h (not_or.2 ⟨h0, h64⟩)

theorem onBase_bad {base : Byte} (h0 : base ≠ 0) (h64 : base ≠ 64) (f : Nat → State → State) (s : State) :
    onBase base f s = .refused .badBlockBase := by
  rcases onBase_cases base f s with ⟨h, -⟩ | ⟨-, e⟩
  · exact absurd h (not_or.2 ⟨h0, h64⟩)
  · exact e

/-- What follows an operation on a block can be done inside it: a base that is refused is refused either way. -/
theorem andThen_onBase (base : Byte) (f : Nat → State → State) (g : State → State) (s : State) :
    andThen (onBase base f s) (fun t => .next (g t)) = onBase base (fun n t => g (f n t)) s := by
  rw [onBase, onBase]
  cases blockBase base <;> rfl

/-- Settles O18: RND is compared with the index, and the base with 0 and 64. -/
theorem operationsOutOfPlaceStop : Obligations.OperationsOutOfPlaceStop := by
  refine ⟨fun i x s hx hrnd => ?round, fun base s h0 h64 => ⟨onBase_bad h0 h64 _ s, onBase_bad h0 h64 _ s⟩⟩
  case round => rw [exec_round hx, roundAt_outOfOrder hrnd]

/-! ### PARSE, LOADW, FEEDFWD -/

theorem parseBlock_w_get (n : Nat) (s : State) (j : Fin 16) : (parseBlock n s).w.get j = blockWord s.buf n j.val := by
  simp [parseBlock, Vector.get_eq_getElem]

/-- Four bytes of BUF make a number below 2^32, so a word of the block is that number (R61). -/
theorem toNat_blockWord (m : Memory) (n j : Nat) :
    (blockWord m n j).toNat = (m.read (n + 4 * j)).toNat + (m.read (n + 4 * j + 1)).toNat * 2 ^ 8 +
      (m.read (n + 4 * j + 2)).toNat * 2 ^ 16 + (m.read (n + 4 * j + 3)).toNat * 2 ^ 24 := by
  have h0 := (m.read (n + 4 * j)).isLt
  have h1 := (m.read (n + 4 * j + 1)).isLt
  have h2 := (m.read (n + 4 * j + 2)).isLt
  have h3 := (m.read (n + 4 * j + 3)).isLt
  simp only [blockWord, BitVec.toNat_ofNat, memRead, Nat.add_zero]
  omega

/-- Settles O25: PARSE writes W only, each entry a word of the block. -/
theorem parseReadsLittleEndianWords : Obligations.ParseReadsLittleEndianWords := by
  intro base s hbase
  refine ⟨⟨rfl, uopWord_label 0x45 base⟩, parseBlock base.toNat s, onBase_valid hbase parseBlock s, rfl, fun j => ?_⟩
  rw [parseBlock_w_get, toNat_blockWord]

/-- Settles O26: each sum is one addition of words. -/
theorem loadAndFeedForwardRespectively : Obligations.LoadAndFeedForwardRespectively :=
  ⟨⟨rfl, uopWord_label 0x46 0⟩, ⟨rfl, uopWord_label 0x47 0⟩, fun s => ⟨rfl, feedForward s, rfl, rfl,
    BitVec.toNat_add s.A s.a, BitVec.toNat_add s.B s.b, BitVec.toNat_add s.C s.c, BitVec.toNat_add s.D s.d⟩⟩

/-! ### COMPRESS -/

/-- The 64 ROUND instructions in order, from RND at 0, are the rounds of a COMPRESS (R140). -/
theorem runInstrs_allRounds {s : State} (h : s.rnd = 0) :
    runInstrs (roundsF.toList ++ roundsG.toList ++ roundsH.toList ++ roundsI.toList) s = .next (allRounds Config.tables s) := by
  have indices : ((List.range 64).map fun j => (0 : BitVec 6) + BitVec.ofNat 6 j) = roundIndices :=
    List.map_congr_left fun j _ => BitVec.zero_add _
  rw [rounds_eq, runInstrs_rounds 64 0 s h, indices, allRounds]

/-- The operations behind PARSE stop nowhere: LOADW sets RND to 0, where the rounds begin. -/
theorem runInstrs_afterParse (t : State) :
    runInstrs (.loadw :: (roundsF.toList ++ roundsG.toList ++ roundsH.toList ++ roundsI.toList) ++ [.feedfwd]) t =
      .next (feedForward (allRounds Config.tables (loadWork t))) := by
  have load : exec .loadw t = .next (loadWork t) := rfl
  have start : (loadWork t).rnd = 0 := rfl
  rw [runInstrs_append, runInstrs, load, andThen_next, runInstrs_allRounds start, andThen_next]
  exact andThen_next_right (.next (feedForward _))

/-- Settles O27: behind PARSE the operations make one function of the state, which can be done inside PARSE's place of the block. -/
theorem compressIsItsSixtySevenOperations : Obligations.CompressIsItsSixtySevenOperations := by
  refine fun base s => ⟨⟨rfl, uopWord_label 0x48 base⟩, rfl, ?_⟩
  calc runInstrs (compressProgram base) s
      = andThen (onBase base parseBlock s) (runInstrs
          (.loadw :: (roundsF.toList ++ roundsG.toList ++ roundsH.toList ++ roundsI.toList) ++ [.feedfwd])) := rfl
    _ = andThen (onBase base parseBlock s) fun t => .next (feedForward (allRounds Config.tables (loadWork t))) :=
        congrArg _ (funext runInstrs_afterParse)
    _ = exec (.compress base) s := andThen_onBase base parseBlock _ s

/-- A COMPRESS writes the State words and the scratch registers only (R154). -/
theorem compressBlock_frame (T : Tables) (n : Nat) (s : State) :
    compressBlock T n s = { s with
      A := (compressBlock T n s).A, B := (compressBlock T n s).B, C := (compressBlock T n s).C, D := (compressBlock T n s).D,
      a := (compressBlock T n s).a, b := (compressBlock T n s).b, c := (compressBlock T n s).c, d := (compressBlock T n s).d,
      rnd := (compressBlock T n s).rnd, w := (compressBlock T n s).w } := by
  rw [compressBlock_eq, State.setWorkQuad, State.setW, State.setWork, State.setChain]

/-- Settles O28: at 0 and at 64 a COMPRESS is compressBlock, which computes the function and has that frame. -/
theorem compressComputesItsFunction : Obligations.CompressComputesItsFunction :=
  ⟨compressBlock_chain, fun base s hbase => ⟨compressBlock Config.tables base.toNat s, onBase_valid hbase _ s,
    compressBlock_chain _ _ s, compressBlock_frame _ _ s, compressBlock_rnd _ _ s⟩⟩

end Sys2Proof.Machine
end

section
/-! PROOFS of the family 42_rounds_F: the rows of spec/42_rounds_F.md are the template's own rows at the indices 0 to 15, and the
template's row at an index holds with the function of the index's group (R143, R148, R200 to R215). -/

namespace Sys2Proof.Machine

/-- The row of the index `i`, each entry computed from `i` by the template (R95, R143, R148). -/
def templateRow (i : BitVec 6) : RoundRow where
  instr := roundOf (i.extractLsb' 4 2) (i.extractLsb' 0 4)
  fn := i.extractLsb' 4 2
  j := i.extractLsb' 0 4
  i := i
  g := wordIndex i
  k := constantOf Config.tables i
  amount := amountOf Config.tables i
  next := i + 1

/-- The template's row says what its ROUND does, with the function of the index's group (R143). -/
theorem templateRow_holds (i : BitVec 6) : (templateRow i).Holds (mixOf (groupOf i)) := by
  refine ⟨?label, fun s hrnd => ?next⟩
  case label => exact encode_roundOf (i.extractLsb' 4 2) (i.extractLsb' 0 4)
  case next =>
    calc exec (templateRow i).instr s
        = roundAt Config.tables i (mixOf (groupOf i)) (wordIndex i) s := exec_round rfl s
      _ = .next (roundWith Config.tables i (mixOf (groupOf i)) (wordIndex i) s) := roundAt_eq_next.2 ⟨hrnd, rfl⟩

/-- Rows that are the template's at indices of one group hold with that group's function. -/
theorem holds_of_eq_map_templateRow {rows : List RoundRow} {indices : List (BitVec 6)} {fn : BitVec 2}
    (eq : rows = indices.map templateRow) (group : ∀ i ∈ indices, groupOf i = fn) : ∀ r ∈ rows, r.Holds (mixOf fn) := by
  subst eq
  intro r hr
  obtain ⟨i, hi, rfl⟩ := List.mem_map.1 hr
  rw [← group i hi]
  exact templateRow_holds i

/-- The rows of R200 to R207 are the template's. -/
theorem roundsFLow_eq_map_templateRow : roundsFLow = [0, 1, 2, 3, 4, 5, 6, 7].map templateRow := rfl

/-- The rows of R208 to R215 are the template's. -/
theorem roundsFHigh_eq_map_templateRow : roundsFHigh = [8, 9, 10, 11, 12, 13, 14, 15].map templateRow := rfl

/-- Settles O9: the eight rows are the template's at the indices 0 to 7, all of group 0, whose function is F. -/
theorem roundsF00ToF07 : Obligations.RoundsF00ToF07 :=
  holds_of_eq_map_templateRow (fn := 0) roundsFLow_eq_map_templateRow (by decide)

/-- Settles O10: the eight rows are the template's at the indices 8 to 15, all of group 0, whose function is F. -/
theorem roundsF08ToF15 : Obligations.RoundsF08ToF15 :=
  holds_of_eq_map_templateRow (fn := 0) roundsFHigh_eq_map_templateRow (by decide)

end Sys2Proof.Machine
end

section
/-! PROOFS of the family 43_rounds_G: the rows of spec/43_rounds_G.md are the template's own rows at the indices 16 to 31, where
`holds_of_eq_map_templateRow` gives them the function of group 1 (R143, R148, R216 to R231). -/

namespace Sys2Proof.Machine

/-- The rows of R216 to R223 are the template's. -/
theorem roundsGLow_eq_map_templateRow : roundsGLow = [16, 17, 18, 19, 20, 21, 22, 23].map templateRow := rfl

/-- The rows of R224 to R231 are the template's. -/
theorem roundsGHigh_eq_map_templateRow : roundsGHigh = [24, 25, 26, 27, 28, 29, 30, 31].map templateRow := rfl

/-- Settles O11: the eight rows are the template's at the indices 16 to 23, all of group 1, whose function is G. -/
theorem roundsG16ToG23 : Obligations.RoundsG16ToG23 :=
  holds_of_eq_map_templateRow (fn := 1) roundsGLow_eq_map_templateRow (by decide)

/-- Settles O12: the eight rows are the template's at the indices 24 to 31, all of group 1, whose function is G. -/
theorem roundsG24ToG31 : Obligations.RoundsG24ToG31 :=
  holds_of_eq_map_templateRow (fn := 1) roundsGHigh_eq_map_templateRow (by decide)

end Sys2Proof.Machine
end

section
/-! PROOFS of the family 44_rounds_H: the rows of spec/44_rounds_H.md are the template's own rows at the indices 32 to 47, where
`holds_of_eq_map_templateRow` gives them the function of group 2 (R143, R148, R232 to R247). -/

namespace Sys2Proof.Machine

/-- The rows of R232 to R239 are the template's. -/
theorem roundsHLow_eq_map_templateRow : roundsHLow = [32, 33, 34, 35, 36, 37, 38, 39].map templateRow := rfl

/-- The rows of R240 to R247 are the template's. -/
theorem roundsHHigh_eq_map_templateRow : roundsHHigh = [40, 41, 42, 43, 44, 45, 46, 47].map templateRow := rfl

/-- Settles O13: the eight rows are the template's at the indices 32 to 39, all of group 2, whose function is H. -/
theorem roundsH32ToH39 : Obligations.RoundsH32ToH39 :=
  holds_of_eq_map_templateRow (fn := 2) roundsHLow_eq_map_templateRow (by decide)

/-- Settles O14: the eight rows are the template's at the indices 40 to 47, all of group 2, whose function is H. -/
theorem roundsH40ToH47 : Obligations.RoundsH40ToH47 :=
  holds_of_eq_map_templateRow (fn := 2) roundsHHigh_eq_map_templateRow (by decide)

end Sys2Proof.Machine
end

section
/-! PROOFS of the family 45_rounds_I: the rows of spec/45_rounds_I.md are the template's own rows at the indices 48 to 63, where
`holds_of_eq_map_templateRow` gives them the function of group 3 (R143, R148, R248 to R263). -/

namespace Sys2Proof.Machine

/-- The rows of R248 to R255 are the template's. -/
theorem roundsILow_eq_map_templateRow : roundsILow = [48, 49, 50, 51, 52, 53, 54, 55].map templateRow := rfl

/-- The rows of R256 to R263 are the template's; RND after index 63 wraps to 0. -/
theorem roundsIHigh_eq_map_templateRow : roundsIHigh = [56, 57, 58, 59, 60, 61, 62, 63].map templateRow := rfl

/-- Settles O15: the eight rows are the template's at the indices 48 to 55, all of group 3, whose function is I. -/
theorem roundsI48ToI55 : Obligations.RoundsI48ToI55 :=
  holds_of_eq_map_templateRow (fn := 3) roundsILow_eq_map_templateRow (by decide)

/-- Settles O16: the eight rows are the template's at the indices 56 to 63, all of group 3, whose function is I. -/
theorem roundsI56ToI63 : Obligations.RoundsI56ToI63 :=
  holds_of_eq_map_templateRow (fn := 3) roundsIHigh_eq_map_templateRow (by decide)

end Sys2Proof.Machine
end

section
/-! PROOFS of the family 46_accumulator: what each of the four commands answers, field by field, where PHASE leads, and the digest of
a message carried out command by command (R270 to R276, R278). -/

namespace Sys2Proof.Machine

/-! ### DATA -/

/-- The bit of DATA's op field is the 0x100 of its word (R91, R92). -/
theorem hasWord_data (v : Byte) : HasWord (.data v) (0x100 + v.setWidth 10) := by
  have bits : (0 : BitVec 6) ++ (0b01 : BitVec 2) ++ v = ((0x100 : CmdWord) + v.setWidth 10).setWidth 16 := by
    apply BitVec.eq_of_toNat_eq
    have hv := v.isLt
    rw [toNat_append_eq_add, toNat_append_eq_add, BitVec.toNat_setWidth_of_le (by decide), BitVec.toNat_add,
      BitVec.toNat_setWidth_of_le (by decide)]
    show (0 * 2 ^ 2 + 1) * 2 ^ 8 + v.toNat = (0x100 + v.toNat) % 2 ^ 10
    omega
  exact congrArg (TableWord.mk .cmd) bits

/-- LOVF is set where it was set and where the new count is 2^61 or more (R32). -/
theorem nextLovf_eq_true {b : Bool} {n : BitVec 64} : nextLovf b n = true ↔ b = true ∨ 2 ^ 61 ≤ n.toNat := by
  rw [nextLovf, Bool.or_eq_true, lenOverflows_iff]

section Taken
variable {s : State} (T : Tables) (v : Byte)

/-- A byte that completes no block is stored and counted, and that is all (R272). -/
theorem takeByte_partial (h : s.cnt.toNat < 63) : absorbFull T (afterByte v s) = afterByte v s := by
  apply absorbFull_other
  rw [afterByte_cnt, ne_eq, ← BitVec.toNat_inj, cnt_succ (by omega)]
  show _ ≠ 64
  omega

/-- The 64th byte has the block it completes compressed (R272). -/
theorem takeByte_full (h : s.cnt.toNat = 63) :
    absorbFull T (afterByte v s) = (compressBlock T 0 (afterByte v s)).setCnt 0 := by
  apply absorbFull_full
  rw [afterByte_cnt, ← BitVec.toNat_inj, cnt_succ (by omega), h]
  rfl

theorem takeByte_full_chain (hw : s.buf.wf = true) (h : s.cnt.toNat = 63) :
    (absorbFull T (afterByte v s)).chain = compressFn T (s.buf.slice 0 63 ++ [v]) s.chain := by
  have block : (afterByte v s).buf.slice 0 64 = s.buf.slice 0 63 ++ [v] := by
    rw [afterByte_buf, h]
    exact Memory.slice_write v hw (by decide)
  rw [takeByte_full T v h, State.setCnt_chain, compressBlock_chain, afterByte_chain, block]

theorem takeByte_samePorts : SamePorts s (absorbFull T (afterByte v s)) :=
  ⟨absorbFull_inputs T _, absorbFull_issue T _, absorbFull_freeIndex T _⟩

theorem takeByte_read (hw : s.buf.wf = true) (j : Nat) :
    (absorbFull T (afterByte v s)).buf.read j = if j = s.cnt.toNat then v else s.buf.read j := by
  rw [absorbFull_buf, afterByte_buf, Memory.read_write hw]

end Taken

/-- Settles O34: DATA stores and counts the byte, then compresses the block if the byte was its 64th. -/
theorem dataTakesOneByte : Obligations.DataTakesOneByte := by
  intro v s hw hr hc
  refine ⟨hasWord_data v, _, exec_data hr (by omega), ?phase, ?perr, ?digest, takeByte_samePorts _ v, ?stored, fun a ha => ?outside,
    ?len, ?lovf, fun h => ?buffered, fun h => ⟨?empty, takeByte_full_chain _ v hw h⟩⟩
  case phase => rw [absorbFull_phase, afterByte_phase, hr]
  case perr => rw [absorbFull_perr, afterByte_perr]
  case digest => rw [absorbFull_digest, afterByte_digest]
  case stored => rw [takeByte_read _ v hw, if_pos rfl]
  case outside => rw [takeByte_read _ v hw, if_neg (by omega)]
  case len => rw [absorbFull_len, afterByte_len, BitVec.toNat_add]; rfl
  case lovf => rw [absorbFull_lovf, afterByte_lovf, absorbFull_len, afterByte_len, nextLovf_eq_true]
  case buffered => rw [takeByte_partial _ v h]; rfl
  case empty => rw [takeByte_full _ v h, State.setCnt_cnt]

/-! ### END -/

section Padded
variable {s : State} (hw : s.buf.wf = true) (hc : s.cnt.toNat ≤ 63)
include hw hc

/-- After PAD the valid part of BUF is the function pad of the remainder (R124). -/
theorem afterPad_slice_eq_padFn :
    (afterPad s).buf.slice 0 (afterPad s).cnt.toNat = padFn (s.buf.slice 0 s.cnt.toNat) (bitLen s.len) := by
  rw [afterPad_valid hw hc, padFn_eq, Memory.slice_length]

/-- PAD writes from CNT up to the new CNT. -/
theorem afterPad_sameOutside : SameOutside s (afterPad s) s.cnt.toNat ((afterPad s).cnt.toNat - s.cnt.toNat) := by
  have hlength := padBytes_length s.cnt.toNat (bitLen s.len)
  have room : s.cnt.toNat + (padBytes s.cnt.toNat (bitLen s.len)).length ≤ Memory.size := by
    show _ ≤ 128; omega
  rw [afterPad_cnt, cnt_add (by omega), ← hlength, Nat.add_sub_cancel_left]
  exact fun _ ha => memWrite_read_outside _ hw room ha

/-- The tail of a remainder of at most 55 bytes is one block (R273). -/
theorem compressPadded_chain_one (T : Tables) (h : s.cnt.toNat ≤ 55) :
    (compressPadded T (afterPad s)).chain = compressFn T (padFn (s.buf.slice 0 s.cnt.toNat) (bitLen s.len)) s.chain := by
  have hcnt : (afterPad s).cnt = 64 := (afterPad_cnt_eq hc).trans (if_pos h)
  rw [compressPadded_chain, ← afterPad_slice_eq_padFn hw hc, hcnt]
  rfl

/-- The tail of a longer remainder is two blocks, compressed in order (R273). -/
theorem compressPadded_chain_two (T : Tables) (h : 56 ≤ s.cnt.toNat) :
    (compressPadded T (afterPad s)).chain = compressFn T ((padFn (s.buf.slice 0 s.cnt.toNat) (bitLen s.len)).drop 64)
      (compressFn T ((padFn (s.buf.slice 0 s.cnt.toNat) (bitLen s.len)).take 64) s.chain) := by
  have hcnt : (afterPad s).cnt = 128 := (afterPad_cnt_eq hc).trans (if_neg (by omega))
  rw [compressPadded_chain, ← afterPad_slice_eq_padFn hw hc, if_pos hcnt, Memory.slice_drop, Memory.slice_take, hcnt]
  · rfl
  · rw [hcnt]; decide

end Padded

section Serialized
variable (s : State)

@[simp] theorem serializeChain_chain : (serializeChain s).chain = s.chain := rfl
@[simp] theorem serializeChain_buf : (serializeChain s).buf = s.buf := rfl
@[simp] theorem serializeChain_cnt : (serializeChain s).cnt = s.cnt := rfl
@[simp] theorem serializeChain_len : (serializeChain s).len = s.len := rfl
@[simp] theorem serializeChain_digest : (serializeChain s).digest = serializeFn s.chain := rfl
@[simp] theorem serializeChain_perr : (serializeChain s).perr = s.perr := rfl
@[simp] theorem serializeChain_lovf : (serializeChain s).lovf = s.lovf := rfl
@[simp] theorem serializeChain_inputs : (serializeChain s).inputs = s.inputs := rfl
@[simp] theorem serializeChain_issue : (serializeChain s).issue = s.issue := rfl
@[simp] theorem serializeChain_freeIndex : (serializeChain s).freeIndex = s.freeIndex := rfl

end Serialized

/-- Settles O35: END pads, compresses the one or two blocks of the padded tail and serializes the State words. -/
theorem endFinishesTheMessage : Obligations.EndFinishesTheMessage := by
  refine ⟨rfl, fun s hw hr hc => ⟨_, exec_endMsg hr (by omega), rfl, ?len, ?perr, ?lovf, ⟨?inputs, ?issue, ?freeIndex⟩,
    ?cnt, ?tail, ?outside, fun h => ?oneBlock, fun h => ?twoBlocks, ?digest⟩⟩
  case len | perr | lovf | inputs | issue | freeIndex | digest => simp
  all_goals simp only [SameOutside, State.setPhase_chain, State.setPhase_buf, State.setPhase_cnt, serializeChain_chain,
    serializeChain_buf, serializeChain_cnt, compressPadded_buf, compressPadded_cnt]
  case cnt => rw [afterPad_cnt_eq hc]; exact apply_ite BitVec.toNat _ _ _
  case tail => exact afterPad_slice_eq_padFn hw hc
  case outside => exact afterPad_sameOutside hw hc
  case oneBlock => exact compressPadded_chain_one hw hc _ h
  case twoBlocks => exact compressPadded_chain_two hw hc _ h

/-! ### INIT and FAIL -/

/-- A message that has just begun is not changed by beginning it again. -/
theorem beginMessage_beginMessage (s : State) : beginMessage (beginMessage s) = beginMessage s := rfl

/-- Settles O33: INIT writes constants only, so it is idempotent. -/
theorem initBeginsAMessage : Obligations.InitBeginsAMessage :=
  ⟨rfl, fun s => ⟨beginMessage s, exec_init s, beginMessage_eq s, (by decide : statusWord .reading false false = 0x00), rfl,
    congrArg Host.Outcome.next (beginMessage_beginMessage s)⟩⟩

/-- Settles O36: FAIL writes PHASE only, and STATUS and the flags of the ports are read off it. -/
theorem failAbortsTheComputation : Obligations.FailAbortsTheComputation := by
  refine ⟨rfl, fun s hr => ⟨s.setPhase .failed, exec_fail hr, rfl, ?_, rfl, rfl⟩⟩
  obtain ⟨hphase, -⟩ := status_fields Phase.failed.code s.perr s.lovf
  exact hphase

/-! ### Late commands, and no room -/

/-- The three commands other than INIT. -/
theorem lateCommand_of_mem {v : Byte} {i : Instr} (h : i ∈ [Instr.data v, .endMsg, .fail]) :
    (∃ v, i = .data v) ∨ i = .endMsg ∨ i = .fail := by
  simp only [List.mem_cons, List.not_mem_nil, or_false] at h
  exact h.imp_left fun e => ⟨v, e⟩

/-- Settles O37: out of Reading the three commands set PERR, which no digest shows. -/
theorem lateCommandsOnlySetPerr : Obligations.LateCommandsOnlySetPerr := by
  intro v s hp i hi
  have hr : s.phase ≠ .reading := by rcases hp with hp | hp <;> rw [hp] <;> decide
  exact ⟨s.setPerr true, exec_late (lateCommand_of_mem hi) hr, rfl, rfl, rfl⟩

/-- DATA stops at the APPEND of its byte (log 10). -/
theorem exec_data_full {v : Byte} {s : State} (hr : s.phase = .reading) (h : 128 ≤ s.cnt.toNat) :
    exec (.data v) s = .fault .bufferOverrun := by
  show whenReading _ _ = _
  rw [whenReading_reading hr, takeByte, append_full h, andThen_fault]

/-- END stops in its PAD (log 10). -/
theorem exec_endMsg_full {s : State} (hr : s.phase = .reading) (h : 120 ≤ s.cnt.toNat) :
    exec .endMsg s = .fault .bufferOverrun := by
  show whenReading _ _ = _
  rw [whenReading_reading hr, finishMessage, padAll_full (s := (s.setPhase .draining).setPhase .padding) h, andThen_fault]

/-- Settles O38: the passing phases are not Reading, and past the buffer each of the two commands comes to an APPEND without room. -/
theorem commandsInUnreachableStates : Obligations.CommandsInUnreachableStates := by
  refine fun v s => ⟨fun hp i hi => exec_late (lateCommand_of_mem hi) ?_, exec_data_full, exec_endMsg_full⟩
  intro hr
  rw [hr] at hp
  nomatch hp

/-! ### PHASE from step to step -/

/-- PHASE after a step: Reading by starting over; moved on from Reading by END or FAIL; else kept. -/
theorem step_phase {s t : State} (h : s.Inv) (hs : step s = .next t) :
    (StartsOver s ∧ t.phase = .reading) ∨ t.phase = s.phase ∨
    (s.phase = .reading ∧ ∃ p rest, s.inputs = p :: rest ∧ p.rst = false ∧ p.cmdValid = true ∧
      ((decodeCmd p.cmd = .endMsg ∧ t.phase = .done) ∨ (decodeCmd p.cmd = .fail ∧ t.phase = .failed))) := by
  rcases step_next_cases h hs with rfl | ⟨p, rest, hi, ⟨hr, rfl⟩ | ⟨-, -, rfl⟩ | ⟨hr, hv, command⟩⟩
  · exact .inr (.inl rfl)
  · exact .inl ⟨⟨p, rest, hi, .inl hr⟩, rfl⟩
  · exact .inr (.inl rfl)
  · rcases command with ⟨hc, rfl⟩ | ⟨-, -, rfl⟩ | ⟨-, v, -, rfl⟩ | ⟨hp, hc, rfl⟩ | ⟨hp, hc, rfl⟩
    · exact .inl ⟨⟨p, rest, hi, .inr ⟨hv, hc⟩⟩, rfl⟩
    · exact .inr (.inl rfl)
    · exact .inr (.inl (absorbFull_phase _ _))
    · exact .inr (.inr ⟨hp, p, rest, hi, hr, hv, .inl ⟨hc, rfl⟩⟩)
    · exact .inr (.inr ⟨hp, p, rest, hi, hr, hv, .inr ⟨hc, rfl⟩⟩)

/-- Settles O49: what a step does to PHASE, read out of Reading and in Reading. -/
theorem phaseNeverGoesBack : Obligations.PhaseNeverGoesBack := by
  intro s t h hs
  rcases step_phase h hs with ⟨startsOver, hp⟩ | hp | ⟨hr, moved⟩
  · exact ⟨fun _ => .inr ⟨hp, startsOver⟩, fun _ => .inl hp⟩
  · exact ⟨fun _ => .inl hp, fun hr => .inl (hp.trans hr)⟩
  · exact ⟨fun hne => absurd hr hne, fun _ => .inr moved⟩

/-! ### The whole computation -/

/-- Settles O55: what the commands of a message leave is a finished message. -/
theorem messageGivesItsDigest : Obligations.MessageGivesItsDigest := by
  intro m s hw hm
  obtain ⟨t, ht, finished⟩ := runInstrs_message m hw hm
  obtain ⟨hstatus, -⟩ := finished.ports t.inputs t.freeIndex
  exact ⟨t, ht, finished.phase, finished.digest, finished.chain, finished.len, finished.perr, finished.lovf, hstatus⟩

end Sys2Proof.Machine
end

section
/-! PROOFS of the family 47_serializer: the sixteen bytes as four little-endian words and back, as 32 characters and back, and as
the 128 wires of the digest port (R290 to R293). -/

namespace Sys2Proof.Machine

/-! ### Bytes and words of a digest -/

/-- A digest byte's place is a word and a byte of that word. -/
theorem exists_word_byte {n : Nat} (h : n < 16) : ∃ m k : Fin 4, n = 4 * m.val + k.val :=
  ⟨⟨n / 4, by omega⟩, ⟨n % 4, by omega⟩, (Nat.div_add_mod n 4).symm⟩

theorem digestBytes_getElem (A B C D : Word) (m k : Fin 4) :
    (digestBytes A B C D)[4 * m.val + k.val] = wordByte ((#v[A, B, C, D] : Vector Word 4).get m) k.val := by
  apply Option.some.inj
  rw [← digestBytes_getElem?, Vector.getElem?_toList, Vector.getElem?_eq_getElem]

/-- Word m of sixteen bytes is made of four of them, the lowest first (R293). -/
theorem digestWord_eq (v : Vector Byte 16) (m : Fin 4) :
    digestWord v m.val = BitVec.ofNat 32 (littleEndian [v[4 * m.val], v[4 * m.val + 1], v[4 * m.val + 2], v[4 * m.val + 3]]) := by
  have four : (v.toList.drop (4 * m.val)).take 4 = [v[4 * m.val], v[4 * m.val + 1], v[4 * m.val + 2], v[4 * m.val + 3]] := by
    have room : 4 * m.val + 3 < v.toList.length := by rw [Vector.length_toList]; omega
    rw [List.drop_eq_getElem_cons (by omega), List.drop_eq_getElem_cons (by omega), List.drop_eq_getElem_cons (by omega),
      List.drop_eq_getElem_cons room]
    simp
  rw [digestWord, four]

theorem quadOfDigest_get (v : Vector Byte 16) (m : Fin 4) :
    (#v[(quadOfDigest v).A, (quadOfDigest v).B, (quadOfDigest v).C, (quadOfDigest v).D] : Vector Word 4).get m = digestWord v m.val := by
  fin_cases m <;> rfl

/-- Four bytes make a number below 2^32, so as a word nothing of it is lost. -/
theorem toNat_ofNat_littleEndian (a b c d : Byte) :
    (BitVec.ofNat 32 (littleEndian [a, b, c, d])).toNat = a.toNat + b.toNat * 2 ^ 8 + c.toNat * 2 ^ 16 + d.toNat * 2 ^ 24 := by
  have ha := a.isLt
  have hb := b.isLt
  have hc := c.isLt
  have hd := d.isLt
  simp only [littleEndian, BitVec.toNat_ofNat]
  omega

theorem toNat_digestWord (v : Vector Byte 16) (m : Fin 4) :
    (digestWord v m.val).toNat =
      v[4 * m.val].toNat + v[4 * m.val + 1].toNat * 2 ^ 8 + v[4 * m.val + 2].toNat * 2 ^ 16 + v[4 * m.val + 3].toNat * 2 ^ 24 := by
  rw [digestWord_eq, toNat_ofNat_littleEndian]

theorem quadOfDigest_serializeFn (q : Quad) : quadOfDigest (serializeFn q) = q := by
  rw [quadOfDigest, Quad.mk.injEq]
  exact ⟨littleEndian_wordBytes q.A, littleEndian_wordBytes q.B, littleEndian_wordBytes q.C, littleEndian_wordBytes q.D⟩

theorem serializeFn_quadOfDigest (v : Vector Byte 16) : serializeFn (quadOfDigest v) = v := by
  apply Vector.ext
  intro n hn
  obtain ⟨m, k, rfl⟩ := exists_word_byte hn
  rw [serializeFn, digestBytes_getElem, quadOfDigest_get, digestWord_eq, wordByte_littleEndian _ _ _ _ _ k.isLt]
  fin_cases k <;> rfl

/-! ### The hexadecimal string -/

theorem digestOfHex_eq_some (cs : List Char) (v : Vector Byte 16) : digestOfHex cs = some v ↔ cs = hexOf v :=
  (digestOfHex_toList cs v).trans (bytesOfHex_eq_some cs v.toList)

theorem quadOfHex_eq_some (cs : List Char) (q : Quad) : quadOfHex cs = some q ↔ cs = hexOf (serializeFn q) := by
  rw [quadOfHex, Option.map_eq_some_iff]
  constructor
  · rintro ⟨v, hv, rfl⟩
    rwa [serializeFn_quadOfDigest, ← digestOfHex_eq_some]
  · intro h
    exact ⟨serializeFn q, (digestOfHex_eq_some _ _).2 h, quadOfDigest_serializeFn q⟩

/-- Settles O30: each word is the little-endian number of its bytes, and each string has one rendering. -/
theorem serializeIsABijection : Obligations.SerializeIsABijection :=
  ⟨quadOfDigest_serializeFn, serializeFn_quadOfDigest,
    fun v => ⟨toNat_digestWord v 0, toNat_digestWord v 1, toNat_digestWord v 2, toNat_digestWord v 3⟩,
    digestOfHex_eq_some, quadOfHex_eq_some⟩

/-- The digits of all sixteen values (R292). -/
theorem hexDigit_eq_getElem? : ∀ x : BitVec 4, some (hexDigit x) = "0123456789abcdef".toList[x.toNat]? := by decide

theorem hexByte_high (x : Byte) : some (hexDigit (x.extractLsb' 4 4)) = "0123456789abcdef".toList[x.toNat / 16]? := by
  have hx := x.isLt
  have high : (x.extractLsb' 4 4).toNat = x.toNat / 16 := by
    rw [BitVec.extractLsb'_toNat, Nat.shiftRight_eq_div_pow]; omega
  rw [hexDigit_eq_getElem?, high]

theorem hexByte_low (x : Byte) : some (hexDigit (x.extractLsb' 0 4)) = "0123456789abcdef".toList[x.toNat % 16]? := by
  rw [hexDigit_eq_getElem?, BitVec.extractLsb'_toNat, Nat.shiftRight_zero]

theorem flatMap_hexByte_length (xs : List Byte) : (xs.flatMap hexByte).length = 2 * xs.length := by
  induction xs with
  | nil => rfl
  | cons x xs ih => rw [List.flatMap_cons, List.length_append, ih, List.length_cons, Nat.mul_succ, Nat.add_comm]; rfl

/-- Characters 2n and 2n + 1 are the two digits of byte n. -/
theorem flatMap_hexByte_getElem? {xs : List Byte} {n : Nat} (h : n < xs.length) :
    (xs.flatMap hexByte)[2 * n]? = some (hexDigit (xs[n].extractLsb' 4 4)) ∧
    (xs.flatMap hexByte)[2 * n + 1]? = some (hexDigit (xs[n].extractLsb' 0 4)) := by
  induction xs generalizing n with
  | nil => nomatch h
  | cons x xs ih =>
    cases n with
    | zero => exact ⟨rfl, rfl⟩
    | succ n => exact ih (Nat.lt_of_succ_lt_succ h)

/-- Settles O32: two characters a byte, and a digit is looked up by its value. -/
theorem hexRendersEachByteHighNibbleFirst : Obligations.HexRendersEachByteHighNibbleFirst := by
  intro v
  refine ⟨(flatMap_hexByte_length v.toList).trans (by rw [Vector.length_toList]), fun n h => ?_⟩
  obtain ⟨high, low⟩ := flatMap_hexByte_getElem? (xs := v.toList) (n := n) (by rwa [Vector.length_toList])
  rw [Vector.getElem_toList] at high low
  exact ⟨high.trans (hexByte_high v[n]), low.trans (hexByte_low v[n])⟩

/-! ### The digest port -/

theorem packDigest_extract (v : Vector Byte 16) {n : Nat} (h : n < 16) : (packDigest v).extractLsb' (8 * n) 8 = v[n] := by
  rw [packDigest, packed_extract v.toList n (by rwa [Vector.length_toList]) (Vector.length_toList).le, Vector.getElem_toList]

/-- 128 wires are known by their sixteen bytes. -/
theorem eq_of_extract_bytes {x y : BitVec 128} (h : ∀ n < 16, x.extractLsb' (8 * n) 8 = y.extractLsb' (8 * n) 8) : x = y := by
  apply BitVec.eq_of_getLsbD_eq
  intro i hi
  have bit := congrArg (·.getLsbD (i % 8)) (h (i / 8) (by omega))
  simpa only [BitVec.getLsbD_extractLsb', Nat.mod_lt i (show 0 < 8 by decide), decide_true, Bool.true_and, Nat.div_add_mod] using bit

/-- The lowest four bytes of a row of words are the last word's. -/
theorem extract_append_low {n : Nat} (x : BitVec n) (y : Word) (k : Fin 4) :
    (x ++ y).extractLsb' (8 * (4 * 0 + k.val)) 8 = wordByte y k.val := by
  rw [BitVec.extractLsb'_append_eq_of_add_le (by omega), Nat.mul_zero, Nat.zero_add, wordByte]

/-- The bytes above the last word are those of the words before it. -/
theorem extract_append_high {n : Nat} (x : BitVec n) (y : Word) (m : Nat) (k : Fin 4) :
    (x ++ y).extractLsb' (8 * (4 * (m + 1) + k.val)) 8 = x.extractLsb' (8 * (4 * m + k.val)) 8 := by
  rw [BitVec.extractLsb'_append_eq_of_le (by omega), show 8 * (4 * (m + 1) + k.val) - 32 = 8 * (4 * m + k.val) by omega]

/-- Byte k of word m of four words in a row, the last being the lowest. -/
theorem extract_append_words (A B C D : Word) (m k : Fin 4) :
    (D ++ C ++ B ++ A).extractLsb' (8 * (4 * m.val + k.val)) 8 = wordByte ((#v[A, B, C, D] : Vector Word 4).get m) k.val := by
  match m with
  | 0 => exact extract_append_low _ A k
  | 1 => exact (extract_append_high _ A 0 k).trans (extract_append_low _ B k)
  | 2 => exact (extract_append_high _ A 1 k).trans ((extract_append_high _ B 0 k).trans (extract_append_low _ C k))
  | 3 =>
    show (D ++ C ++ B ++ A).extractLsb' (8 * (4 * (2 + 1) + k.val)) 8 = D.extractLsb' (8 * k.val) 8
    rw [extract_append_high, extract_append_high, extract_append_high, Nat.mul_zero, Nat.zero_add]

/-- In Done the port shows the stored bytes (R31, R291). -/
theorem digestPort_done {s : State} (h : s.phase = .done) : s.digestPort = packDigest s.digest := by
  rw [State.digestPort, State.digestOut, State.digestValid, h]
  rfl

/-- Settles O31: the wires byte by byte, and the four words in a row have the same bytes. -/
theorem digestPortLayout : Obligations.DigestPortLayout := by
  intro s hd
  rw [digestPort_done hd]
  refine ⟨fun n h => packDigest_extract s.digest h, fun hdigest => eq_of_extract_bytes fun n h => ?_⟩
  obtain ⟨m, k, rfl⟩ := exists_word_byte h
  rw [packDigest_extract _ h, hdigest, digestBytes_getElem, extract_append_words]

end Sys2Proof.Machine
end

section
/-! PROOFS of the family 60_exceptions: an idle engine holds its state, and a message whose source fails leaves nothing but the fact
that it failed (R301 to R303, R311, R341). -/

namespace Sys2Proof.Machine

/-- Settles O44: of what a step can do with no operation issued, two cases have no command and no reset. -/
theorem idleEngineHoldsItsState : Obligations.IdleEngineHoldsItsState := by
  intro s quiet
  rcases step_cases quiet with ⟨hnil, e⟩ | ⟨p, rest, hi, cases⟩
  · exact ⟨fun _ => e, fun _ _ hi => nomatch hnil.symm.trans hi⟩
  · refine ⟨fun hnil => (nomatch hnil.symm.trans hi), fun p' rest' hi' hr hv => ?_⟩
    obtain ⟨rfl, rfl⟩ := List.cons.inj (hi.symm.trans hi')
    exact ⟨{ s with inputs := rest }, by simpa [hr, hv] using cases, rfl, rfl, rfl⟩

/-! ### A failed message -/

/-- An engine that has counted `n` bytes since INIT. Unlike `Absorbed` it says nothing of what BUF holds, and so needs no canonical
form of BUF. -/
structure Counted (n : Nat) (s : State) : Prop where
  phase : s.phase = .reading
  cnt : s.cnt.toNat ≤ 63
  len : s.len.toNat = n
  perr : s.perr = false
  lovf : s.lovf = false

theorem beginMessage_counted (s : State) : Counted 0 (beginMessage s) := ⟨rfl, Nat.zero_le _, rfl, rfl, rfl⟩

namespace Counted

variable {n : Nat} {s : State}

theorem takeByte (h : Counted n s) (T : Tables) (v : Byte) (hn : n + 1 < 2 ^ 61) :
    Counted (n + 1) (absorbFull T (afterByte v s)) := by
  have hlen : (s.len + 1).toNat = n + 1 := by rw [len_succ, h.len]; rw [h.len]; omega
  have hstored : (afterByte v s).cnt.toNat ≤ 64 := by
    have hc := h.cnt
    rw [afterByte_cnt, cnt_succ (by omega)]; omega
  exact {
    phase := by rw [absorbFull_phase, afterByte_phase, h.phase]
    cnt := by rw [absorbFull_cnt hstored]; omega
    len := by rw [absorbFull_len, afterByte_len, hlen]
    perr := by rw [absorbFull_perr, afterByte_perr, h.perr]
    lovf := by
      rw [absorbFull_lovf, afterByte_lovf]
      exact nextLovf_eq_false.2 ⟨h.lovf, by omega⟩ }

/-- One DATA a byte. -/
theorem runInstrs_data (vs : List Byte) {n : Nat} {s : State} (h : Counted n s) (hn : n + vs.length < 2 ^ 61) :
    ∃ t, runInstrs (vs.map .data) s = .next t ∧ Counted (n + vs.length) t := by
  induction vs generalizing n s with
  | nil => exact ⟨s, rfl, h⟩
  | cons v vs ih =>
    have hc := h.cnt
    rw [List.length_cons, Nat.add_comm vs.length, ← Nat.add_assoc] at hn ⊢
    obtain ⟨t, ht, counted⟩ := ih (h.takeByte Config.tables v (by omega)) hn
    exact ⟨t, by rw [List.map_cons, runInstrs, exec_data h.phase (by omega), andThen_next, ht], counted⟩

end Counted

/-- Out of Reading DATA, END and FAIL set PERR, however many there are (R275). -/
theorem runInstrs_late {late : List Instr} {s : State} (hlate : ∀ i ∈ late, (∃ v, i = .data v) ∨ i = .endMsg ∨ i = .fail)
    (hr : s.phase ≠ .reading) : runInstrs late s = .next (s.setPerr (s.perr || !late.isEmpty)) := by
  induction late generalizing s with
  | nil => rw [List.isEmpty_nil, Bool.not_true, Bool.or_false]; rfl
  | cons i late ih =>
    obtain ⟨hi, hrest⟩ := List.forall_mem_cons.1 hlate
    rw [runInstrs, exec_late hi hr, andThen_next, ih (s := s.setPerr true) hrest hr, List.isEmpty_cons, Bool.not_false, Bool.or_true]
    rfl

/-- Settles O59: the bytes are counted, FAIL changes PHASE alone, and what comes after sets PERR alone. -/
theorem failedRunYieldsNothing : Obligations.FailedRunYieldsNothing := by
  intro m late s hm hlate
  obtain ⟨u, hu, counted⟩ := (beginMessage_counted s).runInstrs_data m (by rwa [Nat.zero_add])
  have hrun : runInstrs ([.init] ++ m.map .data ++ [.fail] ++ late) s =
      .next ((u.setPhase .failed).setPerr (u.perr || !late.isEmpty)) := by
    rw [runInstrs_append, runInstrs_append, runInstrs_append, runInstrs, exec_init, andThen_next, runInstrs, andThen_next, hu,
      andThen_next, runInstrs, exec_fail counted.phase, andThen_next, runInstrs, andThen_next]
    exact runInstrs_late (s := u.setPhase .failed) hlate fun hr => nomatch hr
  refine ⟨_, hrun, ?_, rfl⟩
  rw [counted.perr, Bool.false_or]
  exact congrArg (fun l => (⟨.failed, !late.isEmpty, l, none⟩ : Observation)) counted.lovf

end Sys2Proof.Machine
end

section
/-! PROOFS of the family 70_reset_and_hazards: every command completes (R279, R305, R339). -/

namespace Sys2Proof.Machine

/-- Settles O47: a step idles, resets, passes a sample over, or carries out a command, which Reading has room for. -/
theorem commandsAlwaysComplete : Obligations.CommandsAlwaysComplete := by
  intro s h
  rcases step_cases h.quiet with ⟨-, e⟩ | ⟨p, rest, -, ⟨-, e⟩ | ⟨-, -, e⟩ | ⟨-, -, e⟩⟩
  · exact ⟨_, e⟩
  · exact ⟨_, e⟩
  · obtain ⟨t, ht, -⟩ := exec_command_cases p.cmd (s := s.taken rest) h.readingCnt
    exact ⟨t, e.trans ht⟩
  · exact ⟨_, e⟩

end Sys2Proof.Machine
end
